-- ==== Sys2Proof/Word.lean ====
section
/-! DEFINITION. The machine's units of data: the byte of every port beat and of the scratch buffer, the 16-bit word of
the checksum, the 32-bit pass register and checksum value (00_scope.md R8, R11, R12). -/

namespace Sys2Proof

/-- One byte: a port beat's data, a payload byte, a scratch cell (R50, R70). -/
abbrev Byte := BitVec 8

/-- A 16-bit checksum word, and the width of a stored running sum, `SUM_BITS` (R21, R101(b)). -/
abbrev Word16 := BitVec 16

/-- A 32-bit value: a pass register, `ACC_BITS` (R41), and the combined checksum, `CK_BITS` (R54). -/
abbrev Word32 := BitVec 32

end Sys2Proof
end

