-- ==== Sys2Proof/Config.lean ====
section
/-! DEFINITION. The parameters of the core: the constants the document fixes (R8), the decided widths (R11), and the
open parameters of the wire format (R9) as constants without a body, so that whatever is proved holds for every
assignment that meets R10. -/

namespace Sys2Proof

/-- `MOD` (R8): modulus of both running sums. -/
def Config.modulus : Nat := 65535

/-- `BULK_WORDS` (R8): greatest number of words added in one pass. -/
def Config.bulkWords : Nat := 360

/-- `BULK_BYTES` (R8): the same limit in bytes. -/
def Config.bulkBytes : Nat := 2 * Config.bulkWords

/-- One assignment of the open parameters of R9. Every value of this type meets R10: the lengths and widths are given
by their predecessors, so each is at least 1 (R10(a)); the tag, the length and the checksum field have their declared
widths; `SCRATCH_CAP` is `HDR_LEN` (R10(b)); the functions are pure and total (R10(c)). -/
structure Params where
  /-- `INTRON_LEN - 1`. -/
  intronLenPred : Nat
  /-- `INTRON_RESET`: the intron pattern after hardware reset (D23). -/
  intronReset : Vector Byte (intronLenPred + 1)
  /-- `HDR_LEN - 1`. -/
  hdrLenPred : Nat
  /-- `TYPE_BITS - 1`. -/
  typeBitsPred : Nat
  /-- `LEN_BITS - 1`. -/
  lenBitsPred : Nat
  /-- `HDR_TYPE(h)`: the message-type tag of header `h`. -/
  hdrType : List Byte → BitVec (typeBitsPred + 1)
  /-- `HDR_BLEN(h)`: the declared body length of header `h`. -/
  hdrBlen : List Byte → BitVec (lenBitsPred + 1)
  /-- `HDR_CKSUM(h)`: the frame's checksum field. -/
  hdrCksum : List Byte → Word32
  /-- `HDR_COV(i)`: whether header byte `i` is covered by the checksum. -/
  hdrCov : Nat → Bool
  /-- `TYPES`: the recognised message types. -/
  types : List (BitVec (typeBitsPred + 1))
  /-- `LEN_VALID(t, l)`: whether declared length `l` is possible for type `t`. -/
  lenValid : BitVec (typeBitsPred + 1) → BitVec (lenBitsPred + 1) → Bool

/-- `INTRON_LEN` (R9), at least 1. -/
def Params.intronLen (P : Params) : Nat := P.intronLenPred + 1

/-- `HDR_LEN` (R9), at least 1. -/
def Params.hdrLen (P : Params) : Nat := P.hdrLenPred + 1

/-- `TYPE_BITS` (R9), at least 1. -/
def Params.typeBits (P : Params) : Nat := P.typeBitsPred + 1

/-- `LEN_BITS` (R9), at least 1. -/
def Params.lenBits (P : Params) : Nat := P.lenBitsPred + 1

/-- `SCRATCH_CAP` = `HDR_LEN` (R10(b), R11, D34). -/
def Params.scratchCap (P : Params) : Nat := P.hdrLen

/-- `MPOS_BITS` (R11): least `k` with `2^k >= INTRON_LEN`, and at least 1. -/
def Params.mposBits (P : Params) : Nat := max 1 (Nat.clog 2 P.intronLen)

/-- `CNT_BITS` (R11): least `k` with `2^k > max(HDR_LEN, 2^LEN_BITS - 1)`. -/
def Params.cntBits (P : Params) : Nat := Nat.size (max P.hdrLen (2 ^ P.lenBits - 1))

/-- The number of payload bytes a TYPE event gives the tag: `ceil(TYPE_BITS / 8)` (R181). -/
def Params.typeBytes (P : Params) : Nat := (P.typeBits + 7) / 8

/-! The core's own assignment: one constant without a body for each open parameter (assumption log 1). -/

/-- `INTRON_LEN - 1`, open (R9). DESIGN CHOICE of form: log 1. -/
opaque Config.intronLenPred : Nat
/-- `INTRON_RESET`, open (D23). -/
opaque Config.intronReset : Vector Byte (Config.intronLenPred + 1)
/-- `HDR_LEN - 1`, open (D16). -/
opaque Config.hdrLenPred : Nat
/-- `TYPE_BITS - 1`, open (D16). -/
opaque Config.typeBitsPred : Nat
/-- `LEN_BITS - 1`, open (D26). -/
opaque Config.lenBitsPred : Nat
/-- `HDR_TYPE`, open (D16). -/
opaque Config.hdrType : List Byte → BitVec (Config.typeBitsPred + 1)
/-- `HDR_BLEN`, open (D16). -/
opaque Config.hdrBlen : List Byte → BitVec (Config.lenBitsPred + 1)
/-- `HDR_CKSUM`, open (D16). -/
opaque Config.hdrCksum : List Byte → Word32
/-- `HDR_COV`, open (D16). -/
opaque Config.hdrCov : Nat → Bool
/-- `TYPES`, open (D16). -/
opaque Config.types : List (BitVec (Config.typeBitsPred + 1))
/-- `LEN_VALID`, open (D16). -/
opaque Config.lenValid : BitVec (Config.typeBitsPred + 1) → BitVec (Config.lenBitsPred + 1) → Bool

/-- The assignment the machine runs with: every open parameter at its own unknown constant. -/
def Config.params : Params where
  intronLenPred := Config.intronLenPred
  intronReset := Config.intronReset
  hdrLenPred := Config.hdrLenPred
  typeBitsPred := Config.typeBitsPred
  lenBitsPred := Config.lenBitsPred
  hdrType := Config.hdrType
  hdrBlen := Config.hdrBlen
  hdrCksum := Config.hdrCksum
  hdrCov := Config.hdrCov
  types := Config.types
  lenValid := Config.lenValid

end Sys2Proof
end

