-- ==== Sys2Proof/Syntax.lean ====
section
/-! DEFINITION. The command set FSC-1: the seven commands (R72), their opcodes and packet formats (R71), and the packet
as the command port carries it (R70). -/

namespace Sys2Proof

/-- The seven commands of FSC-1 with their operands (R72, R73): one constructor per row of the opcode table. -/
inductive Instr where
  /-- CS.RESET (R113). -/
  | csReset
  /-- CS.UPDATE with payload `B` (R114). -/
  | csUpdate (B : List Byte)
  /-- CS.GET (R115). -/
  | csGet
  /-- FP.RESET (R131). -/
  | fpReset
  /-- FP.SETINTRON with the new pattern `B` (R134). -/
  | fpSetIntron (B : List Byte)
  /-- FP.PROCESS with payload `B` (R137). -/
  | fpProcess (B : List Byte)
  /-- FP.STATUS (R145). -/
  | fpStatus
  deriving DecidableEq, Repr

/-- The names of the opcode map's rows (R72). -/
inductive Opcode where
  | csReset | csUpdate | csGet | fpReset | fpSetIntron | fpProcess | fpStatus
  deriving DecidableEq, Repr

/-- The three packet formats (R71): N no payload, S stream payload, I intron payload. -/
inductive Format where
  | n | s | i
  deriving DecidableEq, Repr

/-- A command packet as beats 0 and 1 to |B| (R70): the opcode byte and the payload. -/
structure Packet where
  op : Byte
  payload : List Byte
  deriving DecidableEq, Repr

end Sys2Proof
end

