-- ==== Sys2Proof/WellFormed.lean ====
section
/-! DEFINITION. Which commands are legal for an assignment of the parameters (R71, R74(c)). -/

namespace Sys2Proof

/-- A command is well formed when its payload has a length its format allows: only FP.SETINTRON has a condition,
`|B| = INTRON_LEN` (R74(c)); every byte value is legal in every position (R73). -/
def Instr.wellFormed (P : Params) : Instr → Bool
  | .fpSetIntron B => B.length == P.intronLen
  | .csReset | .csUpdate _ | .csGet | .fpReset | .fpProcess _ | .fpStatus => true

end Sys2Proof
end

