-- ==== Sys2Proof/Decode.lean ====
section
/-! DEFINITION. The opcode map (R72), the decoder of a command packet (R74, R82) and the encoder; the packet that an
opcode-table word stands for. -/

namespace Sys2Proof

/-- Opcode values (R72): `op[7:4]` = unit, `op[3:0]` = function (R71). -/
def Opcode.byte : Opcode → Byte
  | .csReset => 0x00
  | .csUpdate => 0x01
  | .csGet => 0x02
  | .fpReset => 0x10
  | .fpSetIntron => 0x11
  | .fpProcess => 0x12
  | .fpStatus => 0x13

/-- The decoder matches the whole opcode byte: `mask = 0xFF` (R72). -/
def Opcode.mask (_ : Opcode) : Byte := 0xFF

/-- Packet format of a row (R71, R72). -/
def Opcode.format : Opcode → Format
  | .csReset | .csGet | .fpReset | .fpStatus => .n
  | .csUpdate | .fpProcess => .s
  | .fpSetIntron => .i

/-- The rows of the opcode map, in the table's order. -/
def Opcode.all : List Opcode :=
  [.csReset, .csUpdate, .csGet, .fpReset, .fpSetIntron, .fpProcess, .fpStatus]

/-- Look beat 0 up under the mask (R82); none for the 249 reserved values (R75). -/
def Opcode.ofByte (op : Byte) : Option Opcode :=
  Opcode.all.find? fun o => op &&& o.mask == o.byte

/-- The field `unit` = `op[7:4]` of an opcode byte (R71). -/
def opUnit (op : Byte) : BitVec 4 := op.extractLsb' 4 4

/-- The field `fn` = `op[3:0]` of an opcode byte (R71). -/
def opFn (op : Byte) : BitVec 4 := op.extractLsb' 0 4

/-- The payload lengths a packet format admits (R71). -/
def Format.admits (P : Params) (f : Format) (len : Nat) : Bool :=
  match f with
  | .n => len == 0
  | .s => true
  | .i => len == P.intronLen

/-- The row a command stands in. -/
def Instr.opcode : Instr → Opcode
  | .csReset => .csReset
  | .csUpdate _ => .csUpdate
  | .csGet => .csGet
  | .fpReset => .fpReset
  | .fpSetIntron _ => .fpSetIntron
  | .fpProcess _ => .fpProcess
  | .fpStatus => .fpStatus

/-- The payload a command carries; none for format N (R73). -/
def Instr.payload : Instr → List Byte
  | .csUpdate B | .fpSetIntron B | .fpProcess B => B
  | .csReset | .csGet | .fpReset | .fpStatus => []

/-- Why a packet is illegal (R74). All three are safe: the machine answers each with status ILLEGAL. -/
inductive Reject where
  /-- R74(a): the opcode is one of the reserved values. -/
  | reservedOpcode (op : Byte)
  /-- R74(b): a format-N command with a payload. -/
  | payloadOnFormatN (o : Opcode)
  /-- R74(c): an FP.SETINTRON payload whose length is not `INTRON_LEN`. -/
  | intronLength (len : Nat)
  deriving DecidableEq, Repr

/-- The command of a row with a payload; format-N rows take none. -/
def Opcode.command (o : Opcode) (B : List Byte) : Instr :=
  match o with
  | .csReset => .csReset
  | .csUpdate => .csUpdate B
  | .csGet => .csGet
  | .fpReset => .fpReset
  | .fpSetIntron => .fpSetIntron B
  | .fpProcess => .fpProcess B
  | .fpStatus => .fpStatus

/-- The decoder (R82): look the opcode up, check the payload length against the format, dispatch. Legality is decided
on the whole packet (R207). -/
def decode (P : Params) (pkt : Packet) : Except Reject Instr :=
  match Opcode.ofByte pkt.op with
  | none => .error (.reservedOpcode pkt.op)
  | some o =>
    if o.format.admits P pkt.payload.length then .ok (o.command pkt.payload)
    else match o.format with
      | .i => .error (.intronLength pkt.payload.length)
      | .n | .s => .error (.payloadOnFormatN o)

/-- The encoder (R71, R79): the opcode byte, then the payload bytes. -/
def encode (i : Instr) : Packet := ⟨i.opcode.byte, i.payload⟩

/-- Byte `k` of a number whose bit 0 is the least significant bit of the first byte. -/
def tableByte (w k : Nat) : Byte := BitVec.ofNat 8 (w / 2 ^ (8 * k))

/-- The packet an opcode-table word of `nbits` bits stands for: beat 0 is bits 7..0, the payload the whole bytes above
it; a format-I packet is filled up with zero bytes to its length `INTRON_LEN` (log 13). -/
def tablePacket (nbits w : Nat) : Packet :=
  let op := tableByte w 0
  let given := (List.range (nbits / 8 - 1)).map fun k => tableByte w (k + 1)
  let fill := match (Opcode.ofByte op).map Opcode.format with
    | some .i => Config.params.intronLen - given.length
    | _ => 0
  ⟨op, given ++ List.replicate fill 0⟩

/-- The command the decoder reads from an opcode-table word. -/
def decodeTableWord (nbits w : Nat) : Option Instr :=
  match decode Config.params (tablePacket nbits w) with
  | .ok i => some i
  | .error _ => none

end Sys2Proof
end

