-- ==== Sys2Proof/Machine/State.lean ====
section
/-! DEFINITION. The state of the FSC core as plain data (R20), the ports beside it, the faults and the refusal, and the
state after hardware reset (R43). -/

namespace Sys2Proof.Machine

/-- One beat of a port: a data byte and the `last` flag (R70, R76, R180). -/
structure Beat where
  data : Byte
  last : Bool
  deriving DecidableEq, Repr

/-- The four registers of a CSA instance (R21, R23): both running sums and the pending byte with its flag. -/
structure Csa where
  c0 : Word16
  c1 : Word16
  pendV : Bool
  pendB : Byte
  deriving DecidableEq, Repr

/-- An accumulator as it is created: "created zeroed" (R43, R102). -/
def Csa.zero : Csa := ⟨0, 0, false, 0⟩

/-- The FSM state tag `st` (R28). -/
inductive FsmState where
  /-- `ST_INTRON`: searching for synchronisation. -/
  | intron
  /-- `ST_HEADER`: accumulating the prelude. -/
  | header
  /-- `ST_DATA`: accumulating the body. -/
  | data
  /-- `ST_THROW`: draining a rejected frame. -/
  | throwAway
  deriving DecidableEq, Repr

/-- The scratch buffer's contents: cells with strictly rising addresses, none holding the value an unlisted address
reads as (log 7). -/
abbrev Memory := List Host.Cell

/-- What an unlisted scratch address reads as: the reset and cleared contents 0x00 (R33, R43). -/
def Memory.unlisted : Byte := 0

/-- The six hook events with their payloads (R181). -/
inductive Event where
  /-- RESET_FRAME (R182). -/
  | resetFrame
  /-- BEGIN with the header bytes (R183). -/
  | beginFrame (h : List Byte)
  /-- BODY with a slice of the body (R185). -/
  | body (d : List Byte)
  /-- COMPLETE with the validity bit (R186). -/
  | complete (v : Bool)
  /-- TYPE with the tag, as a number, and the validity bit (R187). -/
  | typeHook (tag : Nat) (v : Bool)
  /-- INVALID (R188). -/
  | invalid
  deriving DecidableEq, Repr

/-- The response status (R76). -/
inductive Status where
  | ok | illegal
  deriving DecidableEq, Repr

/-- A response packet: status, then data bytes (R76). -/
structure Response where
  status : Status
  data : List Byte
  deriving DecidableEq, Repr

/-- What leaves the core: a hook event or a response (R7). -/
inductive Output where
  | event (e : Event)
  | response (r : Response)
  deriving DecidableEq, Repr

/-- What the FH gives back for a BEGIN event: an answer beat, or a failure the platform detects (R184). -/
inductive Answer where
  | beat (b : Byte)
  | failure
  deriving DecidableEq, Repr

/-- The state: the core's registers and scratch buffer (R20), and the ports' contents, which are the model's own fields
(R44: commands, answers and outputs are never stored in the core; logs 2, 3, 4, 6). -/
structure State where
  /-- `CSH`: the host's accumulator (R3). -/
  csh : Csa
  /-- `CSP`: the parser's accumulator (R3). -/
  csp : Csa
  /-- `st` (R28). -/
  st : FsmState
  /-- `mpos`: the intron match position (R29). -/
  mpos : Nat
  /-- `cnt`: the byte counter (R30). -/
  cnt : Nat
  /-- `intron`: the configured pattern (R31). -/
  intron : List Byte
  /-- `valid`: the last completed frame's checksum matched (R32). -/
  valid : Bool
  /-- `scratch`: the header buffer (R33). -/
  scratch : Memory
  /-- The reset input, sampled between commands (R230; log 6). -/
  rst : Bool
  /-- The command port: beats not yet taken (R70; log 2). -/
  cmd : List Beat
  /-- The FH's answers to BEGIN events to come (R183; log 4). -/
  answers : List Answer
  /-- Every event and response so far, oldest first (R7; log 3). -/
  out : List Output
  deriving DecidableEq, Repr

/-- How a step can stop. The core itself has no fault (R200): only the first can be reached. -/
inductive Fault where
  /-- Raised by FP.PROCESS when a header completes and no BEGIN answer will come: the spec gives the core no step there
  (R193, U5 `stuck`). Safe. -/
  | beginUnanswered
  /-- Raised by `memRead` and `memWrite` at an address outside the scratch buffer, where R13 defines neither. No command
  reaches it. Safe. -/
  | scratchRange
  /-- Raised by the FP.PROCESS loop when its round counter runs out, which R139 excludes. No command reaches it. Safe. -/
  | loopBound
  deriving DecidableEq, Repr

/-- How a step can be refused. -/
inductive Refusal where
  /-- Raised by an arm of `exec` whose instruction has no meaning yet. No arm does. Safe. -/
  | notModelled (mnemonic : String)
  deriving DecidableEq, Repr

/-- The state after hardware reset for an assignment of the parameters (R43); the ports are empty (log 14). -/
def State.resetWith (P : Params) : State where
  csh := Csa.zero
  csp := Csa.zero
  st := .intron
  mpos := 0
  cnt := 0
  intron := P.intronReset.toList
  valid := false
  scratch := []
  rst := false
  cmd := []
  answers := []
  out := []

/-- The machine right after hardware reset (R43, R230). -/
def State.reset : State := State.resetWith Config.params

/-- The pass registers of one CSA_UPDATE (R41): 32 bits each, transient. -/
structure PassRegs where
  a0 : Word32
  a1 : Word32
  deriving DecidableEq, Repr

/-- What a step function of FP.PROCESS returns (R137): more input is required, or the state has advanced; with the
payload bytes not yet consumed, `B[i..n)` (R40). -/
inductive Round where
  | needMore (rest : List Byte) (s : State)
  | advanced (rest : List Byte) (s : State)
  deriving DecidableEq, Repr

end Sys2Proof.Machine
end

