-- ==== Sys2Proof/Machine/Operands.lean ====
section
/-! DEFINITION. Operand forms: how payload bytes become checksum words (R51), how numbers become port bytes (R54, R181),
and the header views of the scratch buffer (R34). -/

namespace Sys2Proof.Machine

/-- Word assembly (R51): the byte that arrives first is the low byte, `b_even | (b_odd << 8)`. -/
def word (lo hi : Byte) : Word16 := lo.setWidth 16 ||| (hi.setWidth 16 <<< 8)

/-- Byte `k` of a 32-bit value, `ck[8k+7 : 8k]`. -/
def byteOf (ck : Word32) (k : Nat) : Byte := ck.extractLsb' (8 * k) 8

/-- The four bytes of a 32-bit value, least significant first (R54, R115). -/
def le32 (ck : Word32) : List Byte := [byteOf ck 0, byteOf ck 1, byteOf ck 2, byteOf ck 3]

/-- A number in `n` bytes, least significant byte first (R181, the TYPE tag). -/
def leBytes : Nat → Nat → List Byte
  | 0, _ => []
  | n + 1, v => BitVec.ofNat 8 v :: leBytes n (v / 256)

/-- The header: `MemRead(0, HDR_LEN)` (R34, R157), always inside the buffer. -/
def State.header (P : Params) (s : State) : List Byte := s.scratch.bytes P.hdrLen

/-- `HDR_TYPE(scratch)` (R34). -/
def State.tag (P : Params) (s : State) : BitVec (P.typeBitsPred + 1) := P.hdrType (s.header P)

/-- `HDR_BLEN(scratch)` (R34), as a number of bytes. -/
def State.bodyLen (P : Params) (s : State) : Nat := (P.hdrBlen (s.header P)).toNat

/-- `HDR_CKSUM(scratch)` (R34). -/
def State.cksumField (P : Params) (s : State) : Word32 := P.hdrCksum (s.header P)

end Sys2Proof.Machine
end

