-- ==== Sys2Proof/Machine/Csa.lean ====
section
/-! DEFINITION. The checksum accumulator unit: its three operations CSA_RESET, CSA_UPDATE and CSA_GET on one instance
(R100 to R116). -/

namespace Sys2Proof.Machine

/-- One word added inside a pass, in the 32-bit pass registers: `a0 <- a0 + w ; a1 <- a1 + a0`, the new `a0` (R104). -/
def passAdd (r : PassRegs) (w : Word16) : PassRegs :=
  let a0 := r.a0 + w.setWidth 32
  ⟨a0, r.a1 + a0⟩

/-- The reduction at the end of a pass (R104). -/
def passReduce (r : PassRegs) : PassRegs :=
  ⟨r.a0 % BitVec.ofNat 32 Config.modulus, r.a1 % BitVec.ofNat 32 Config.modulus⟩

/-- "repeat k times" (R104): add the next `k` words; gives the bytes left. -/
def passWords : Nat → PassRegs → List Byte → PassRegs × List Byte
  | k + 1, r, lo :: hi :: bs => passWords k (passAdd r (word lo hi)) bs
  | _, r, bs => (r, bs)

/-- The loop of bulk passes (R104): while two bytes are left, a pass of `min(BULK_WORDS, left div 2)` words and a
reduction. The first argument bounds the number of passes; the number of bytes is always enough. -/
def bulkPasses : Nat → PassRegs → List Byte → PassRegs × List Byte
  | 0, r, bs => (r, bs)
  | n + 1, r, bs =>
    if bs.length < 2 then (r, bs)
    else
      let p := passWords (min Config.bulkWords (bs.length / 2)) r bs
      bulkPasses n (passReduce p.1) p.2

/-- Store the pass registers back, `a[15:0]`, and an unpaired last byte as the pending byte (R104). -/
def storeBack (r : PassRegs) (left : List Byte) (pendV : Bool) (pendB : Byte) : Csa :=
  match left with
  | [] => ⟨r.a0.setWidth 16, r.a1.setWidth 16, pendV, pendB⟩
  | b :: _ => ⟨r.a0.setWidth 16, r.a1.setWidth 16, true, b⟩

/-- `CSA_RESET(A)` (R102). -/
def csaReset (_ : Csa) : Csa := Csa.zero

/-- `CSA_UPDATE(A, B)` (R104): an empty slice changes nothing (R105); a pending byte is the low byte of a first word
with `B[0]`, a pass of its own (D9); then the bulk passes; an unpaired last byte becomes pending. -/
def csaUpdate (A : Csa) : List Byte → Csa
  | [] => A
  | b :: bs =>
    let r0 : PassRegs := ⟨A.c0.setWidth 32, A.c1.setWidth 32⟩
    if A.pendV then
      let r1 := passReduce (passAdd r0 (word A.pendB b))
      let p := bulkPasses bs.length r1 bs
      storeBack p.1 p.2 false 0
    else
      let p := bulkPasses (b :: bs).length r0 (b :: bs)
      storeBack p.1 p.2 A.pendV A.pendB

/-- `CSA_GET(A)` (R110): the 32-bit checksum `t0 | (t1 << 16)` with a pending byte folded in as the word
`pend_b | (0x00 << 8)`; nothing is written. -/
def csaGet (A : Csa) : Word32 :=
  let t0 := if A.pendV then (A.c0.toNat + A.pendB.toNat) % Config.modulus else A.c0.toNat
  let t1 := if A.pendV then (A.c1.toNat + t0) % Config.modulus else A.c1.toNat
  BitVec.ofNat 32 t0 ||| (BitVec.ofNat 32 t1 <<< 16)

/-- R116: one folding step of the divider-free remainder, `x[15:0] + x[31:16]`. -/
def foldHalves (x : Word32) : Word32 := (x.extractLsb' 0 16).setWidth 32 + (x.extractLsb' 16 16).setWidth 32

/-- R116: `x mod 65535` without a divider: fold twice, and replace the one value 65535 by 0. -/
def foldRemainder (x : Word32) : Word32 :=
  let y := foldHalves (foldHalves x)
  if y = BitVec.ofNat 32 Config.modulus then 0 else y

end Sys2Proof.Machine
end

