-- ==== Sys2Proof/Machine/Flags.lean ====
section
/-! DEFINITION. Flags and the bytes that carry them: the encodings of `st` and `valid` (R28, R145, R181), the status byte of a
response (R76), the reading of a BEGIN answer (R184) and the acceptance predicate (R158). -/

namespace Sys2Proof.Machine

/-- The 2-bit number of a state tag (R28). -/
def FsmState.code : FsmState → BitVec 2
  | .intron => 0
  | .header => 1
  | .data => 2
  | .throwAway => 3

/-- The byte that carries the validity bit in COMPLETE and TYPE: `v[0] = valid`, `v[7:1] = 0` (R181). -/
def validByte (v : Bool) : Byte := if v then 1 else 0

/-- The FP.STATUS byte: `s[1:0] = st`, `s[2] = valid`, `s[7:3] = 0` (R145). -/
def statusByte (st : FsmState) (v : Bool) : Byte := st.code.setWidth 8 ||| (validByte v <<< 2)

/-- The status byte of a response (R76). -/
def Status.byte : Status → Byte
  | .ok => 0x00
  | .illegal => 0x01

/-- How the BEGIN answer is read: the beat 0x01 is ACCEPT; any other beat, and a detected failure, is REJECT (R184). -/
def Answer.accepts : Answer → Bool
  | .beat b => b == 0x01
  | .failure => false

/-- The acceptance predicate (R158): the FH accepts, the type is recognised, the length is possible for it. -/
def accepted (P : Params) (h : List Byte) (ans : Answer) : Bool :=
  ans.accepts && P.types.contains (P.hdrType h) && P.lenValid (P.hdrType h) (P.hdrBlen h)

end Sys2Proof.Machine
end

