-- ==== Sys2Proof/Machine/Ops.lean ====
section
/-! DEFINITION. The shared operations: scratch access, the three ports, the hook (this core's analogue of taking an
exception and returning, R208, R209), the reset actions, and taking a command packet. -/

namespace Sys2Proof.Machine

/-- `MemRead(a, n)`: the `n` bytes from address `a`, defined only inside the scratch buffer (R13). -/
def memRead (P : Params) (a n : Nat) (s : State) : Except Fault (List Byte) :=
  if a + n ≤ P.scratchCap then .ok ((List.range n).map fun j => s.scratch.read (a + j)) else .error .scratchRange

/-- `MemWrite(a, 1, v)`: defined only inside the scratch buffer (R13). -/
def memWrite (P : Params) (a : Nat) (v : Byte) (s : State) : Except Fault State :=
  if a < P.scratchCap then .ok { s with scratch := s.scratch.write a v } else .error .scratchRange

/-! Ports. -/

/-- A packet's beats: the last beat carries `last = 1` (R70, R76, R180). -/
def frameBeats : List Byte → List Beat
  | [] => []
  | [b] => [⟨b, true⟩]
  | b :: c :: bs => ⟨b, false⟩ :: frameBeats (c :: bs)

/-- The beats of a command packet (R70, R79). -/
def packetBeats (pkt : Packet) : List Beat := frameBeats (pkt.op :: pkt.payload)

/-- The bytes up to and with the first beat whose `last` is 1, and the beats after it; none while no such beat has
come. -/
def takeBytes : List Beat → Option (List Byte × List Beat)
  | [] => none
  | b :: bs =>
    if b.last then some ([b.data], bs)
    else match takeBytes bs with
      | none => none
      | some (ds, rest) => some (b.data :: ds, rest)

/-- The next complete command packet on the command port: beat 0 is the opcode, the rest the payload (R70). -/
def fetchPacket (cmd : List Beat) : Option (Packet × List Beat) :=
  match takeBytes cmd with
  | some (op :: payload, rest) => some (⟨op, payload⟩, rest)
  | some ([], _) | none => none

/-- `respond(s, d)` (R78): one response packet, after all that went out before it (R76). -/
def respond (st : Status) (d : List Byte) (s : State) : State :=
  { s with out := s.out ++ [.response ⟨st, d⟩] }

/-- The beats of a response packet: the status byte, then the data (R76). -/
def Response.beats (r : Response) : List Beat := frameBeats (r.status.byte :: r.data)

/-- `emit E(p)` (R13, R180): hand control to the FH with one event. This is the core's analogue of taking an exception:
nothing is saved, no state of the core changes, there is no handler address (R208); the event is over when the port has
taken it (R209). -/
def emit (e : Event) (s : State) : State := { s with out := s.out ++ [.event e] }

/-- `ans <- emit BEGIN(h)` (R13, R157, R183): emit BEGIN and wait for the FH's answer, which ends the hook (R209). An FH
that never answers leaves the core without a step (R193). -/
def askBegin (h : List Byte) (s : State) : Except Fault (Answer × State) :=
  match s.answers with
  | [] => .error .beginUnanswered
  | a :: as => .ok (a, { emit (.beginFrame h) s with answers := as })

/-- The event codes (R181). -/
def Event.code : Event → Byte
  | .resetFrame => 0x01
  | .beginFrame _ => 0x02
  | .body _ => 0x03
  | .complete _ => 0x04
  | .typeHook _ _ => 0x05
  | .invalid => 0x06

/-- The payload of an event packet (R181): the TYPE tag stands in `ceil(TYPE_BITS / 8)` bytes, low byte first. -/
def Event.payload (P : Params) : Event → List Byte
  | .resetFrame => []
  | .beginFrame h => h
  | .body d => d
  | .complete v => [validByte v]
  | .typeHook tag v => leBytes P.typeBytes tag ++ [validByte v]
  | .invalid => []

/-- The beats of an event packet (R180): the code, then the payload. -/
def Event.beats (P : Params) (e : Event) : List Beat := frameBeats (e.code :: e.payload P)

/-! Reset actions. -/

/-- What FP.RESET and FP.SETINTRON write: every FP register but `intron` to its reset value (R43, R131). -/
def parserInit (s : State) : State :=
  { s with st := .intron, mpos := 0, cnt := 0, scratch := Memory.clear, valid := false, csp := csaReset s.csp }

/-- Hardware reset (R43, R230): every register to its reset value; the reset input is released and the ports keep what
stands on them (log 6). -/
def hardReset (P : Params) (s : State) : State :=
  { s with
    csh := Csa.zero, csp := Csa.zero, st := .intron, mpos := 0, cnt := 0,
    intron := P.intronReset.toList, valid := false, scratch := Memory.clear, rst := false }

/-- The answer to an illegal packet: status ILLEGAL, no data, nothing else (R74). -/
def answerIllegal (s : State) : State := respond .illegal [] s

/-- A legal command's answer without data (R78). -/
def answerOk (s : State) : State := respond .ok [] s

end Sys2Proof.Machine
end

