-- ==== Sys2Proof/Machine/ChecksumCommands.lean ====
section
/-! DEFINITION. The commands on the host accumulator CSH: CS.RESET, CS.UPDATE, CS.GET (R113 to R115). -/

namespace Sys2Proof.Machine

/-- CS.RESET (R113): `CSA_RESET(CSH)`. -/
def execCsReset (s : State) : Host.Outcome State Fault Refusal :=
  .next (answerOk { s with csh := csaReset s.csh })

/-- CS.UPDATE (R114): `CSA_UPDATE(CSH, B)`. -/
def execCsUpdate (B : List Byte) (s : State) : Host.Outcome State Fault Refusal :=
  .next (answerOk { s with csh := csaUpdate s.csh B })

/-- CS.GET (R115): the checksum of CSH in four bytes, least significant first; no state is written. -/
def execCsGet (s : State) : Host.Outcome State Fault Refusal :=
  .next (respond .ok (le32 (csaGet s.csh)) s)

end Sys2Proof.Machine
end

