-- ==== Sys2Proof/Machine/ParserSteps.lean ====
section
/-! DEFINITION. The four-state machine: the step functions of FP.PROCESS, one per state (R150 to R168), and the loop over
them (R137). A step function takes the payload bytes not yet consumed, `B[i..n)`, and gives back those it leaves. -/

namespace Sys2Proof.Machine

/-- The actions at a full intron match, in the order of R154: `mpos`, `scratch`, `cnt` cleared, `CSP` reset, RESET_FRAME
emitted, `st <- ST_HEADER` (R152). -/
def startFrame (s : State) : State :=
  { emit .resetFrame { s with mpos := 0, scratch := Memory.clear, cnt := 0, csp := csaReset s.csp } with st := .header }

/-- The position at which a byte is finally compared (R152, R153): the position reached, or position 0 when the byte
mismatches there, since the mismatching byte is tested again against `intron[0]` (D14). -/
def comparePos (s : State) (b : Byte) : Nat := if s.intron[s.mpos]? = some b then s.mpos else 0

/-- `STEP_INTRON` (R152): a matching byte advances `mpos`; the byte that completes the pattern starts a frame; a byte
that matches neither at `mpos` nor at position 0 is discarded. -/
def stepIntron (P : Params) : List Byte → State → Round
  | [], s => .needMore [] s
  | b :: bs, s =>
    let k := comparePos s b
    if s.intron[k]? = some b then
      if k + 1 = P.intronLen then .advanced bs (startFrame s)
      else stepIntron P bs { s with mpos := k + 1 }
    else stepIntron P bs { s with mpos := 0 }

/-- The loop of R156: store header bytes at consecutive addresses from `a` and feed each covered one to `CSP`. -/
def storeHeader (P : Params) : List Byte → Nat → State → Except Fault State
  | [], _, s => .ok s
  | b :: bs, a, s =>
    match memWrite P a b s with
    | .error f => .error f
    | .ok s1 => storeHeader P bs (a + 1) (if P.hdrCov a then { s1 with csp := csaUpdate s1.csp [b] } else s1)

/-- Header completion (R157): BEGIN with the header, then the acceptance predicate (R158), `cnt <- 0`, and ST_DATA or
ST_THROW. -/
def completeHeader (P : Params) (s : State) : Except Fault State :=
  match memRead P 0 P.hdrLen s with
  | .error f => .error f
  | .ok h =>
    match askBegin h s with
    | .error f => .error f
    | .ok (ans, s1) => .ok { s1 with cnt := 0, st := if accepted P h ans then .data else .throwAway }

/-- `STEP_HEADER` (R156, R157). -/
def stepHeader (P : Params) (B : List Byte) (s : State) : Except Fault Round :=
  let k := min B.length (P.hdrLen - s.cnt)
  match storeHeader P (B.take k) s.cnt s with
  | .error f => .error f
  | .ok s1 =>
    let s2 := { s1 with cnt := s.cnt + k }
    if s2.cnt < P.hdrLen then .ok (.needMore (B.drop k) s2)
    else match completeHeader P s2 with
      | .error f => .error f
      | .ok s3 => .ok (.advanced (B.drop k) s3)

/-- Body completion (R161): compare the checksum, set `valid`, COMPLETE then TYPE, `cnt <- 0`, back to ST_INTRON. A
mismatch is reported by the flag alone (R162). -/
def completeBody (P : Params) (s : State) : State :=
  let v := csaGet s.csp == s.cksumField P
  let s1 := emit (.complete v) { s with valid := v }
  let s2 := emit (.typeHook (s1.tag P).toNat v) s1
  { s2 with cnt := 0, st := .intron }

/-- `STEP_DATA` (R160, R161): stream the body bytes to `CSP` and, in one BODY event, to the FH; a zero-length body
completes at once (R163). -/
def stepData (P : Params) (B : List Byte) (s : State) : Round :=
  let len := s.bodyLen P
  let k := min B.length (len - s.cnt)
  let s1 := if 0 < k then emit (.body (B.take k)) { s with csp := csaUpdate s.csp (B.take k) } else s
  let s2 := { s1 with cnt := s.cnt + k }
  if s2.cnt < len then .needMore (B.drop k) s2 else .advanced (B.drop k) (completeBody P s2)

/-- Drain completion (R165): INVALID, `cnt <- 0`, back to ST_INTRON; `valid` and `CSP` untouched (R166). -/
def completeDrain (s : State) : State := { emit .invalid s with cnt := 0, st := .intron }

/-- `STEP_THROW` (R164, R165): drop bytes up to the declared length, unread. -/
def stepThrow (P : Params) (B : List Byte) (s : State) : Round :=
  let len := s.bodyLen P
  let k := min B.length (len - s.cnt)
  let s1 := { s with cnt := s.cnt + k }
  if s1.cnt < len then .needMore (B.drop k) s1 else .advanced (B.drop k) (completeDrain s1)

/-- One round of the loop of R137: the step function of the current state. -/
def fpRound (P : Params) (B : List Byte) (s : State) : Except Fault Round :=
  match s.st with
  | .intron => .ok (stepIntron P B s)
  | .header => stepHeader P B s
  | .data => .ok (stepData P B s)
  | .throwAway => .ok (stepThrow P B s)

/-- The loop of R137: rounds until one needs more input. The first argument bounds the number of rounds. -/
def fpLoop (P : Params) : Nat → List Byte → State → Except Fault (List Byte × State)
  | 0, _, _ => .error .loopBound
  | n + 1, B, s =>
    match fpRound P B s with
    | .error f => .error f
    | .ok (.needMore rest t) => .ok (rest, t)
    | .ok (.advanced rest t) => fpLoop P n rest t

/-- The parser's run over one payload; gives the bytes left unconsumed (none, R141) and the state. The bound is that of
R139 with `INTRON_LEN` taken as 1, its least value (log 10). -/
def fpRun (P : Params) (B : List Byte) (s : State) : Except Fault (List Byte × State) :=
  fpLoop P (3 * B.length + 6) B s

end Sys2Proof.Machine
end

