-- ==== Sys2Proof/Machine/ParserCommands.lean ====
section
/-! DEFINITION. The commands on the frame parser: FP.RESET, FP.SETINTRON, FP.PROCESS, FP.STATUS (R131, R134, R137, R145). The
operations take the parameters as an argument, since the spec states them for every assignment (R9); each meaning is the
operation at the core's own assignment. -/

namespace Sys2Proof.Machine

/-- FP.SETINTRON for an assignment of the parameters (R134): write the pattern, then do what FP.RESET does; a payload of
another length is an illegal packet and changes nothing (R135(b)). -/
def fpSetIntron (P : Params) (B : List Byte) (s : State) : State :=
  if B.length = P.intronLen then answerOk (parserInit { s with intron := B }) else answerIllegal s

/-- FP.PROCESS for an assignment of the parameters (R137): the parser's run over the payload, then the response. -/
def fpProcess (P : Params) (B : List Byte) (s : State) : Host.Outcome State Fault Refusal :=
  match fpRun P B s with
  | .error f => .fault f
  | .ok (_, t) => .next (answerOk t)

/-- FP.RESET (R131): the parser to its initial state, `intron` and CSH kept; no event (R132). -/
def execFpReset (s : State) : Host.Outcome State Fault Refusal :=
  .next (answerOk (parserInit s))

/-- FP.SETINTRON (R134). -/
def execFpSetIntron (B : List Byte) (s : State) : Host.Outcome State Fault Refusal :=
  .next (fpSetIntron Config.params B s)

/-- FP.PROCESS (R137). -/
def execFpProcess (B : List Byte) (s : State) : Host.Outcome State Fault Refusal :=
  fpProcess Config.params B s

/-- FP.STATUS (R145): `st` and `valid` in one byte; no state is written. -/
def execFpStatus (s : State) : Host.Outcome State Fault Refusal :=
  .next (respond .ok [statusByte s.st s.valid] s)

end Sys2Proof.Machine
end

