-- ==== Sys2Proof/Machine/Dispatch.lean ====
section
/-! DEFINITION. One arm per command of the opcode table (R72). -/

namespace Sys2Proof.Machine

def exec (i : Instr) (s : State) : Host.Outcome State Fault Refusal :=
  match i with
  | .csReset => Sys2Proof.Machine.execCsReset s
  | .csUpdate B => Sys2Proof.Machine.execCsUpdate B s
  | .csGet => Sys2Proof.Machine.execCsGet s
  | .fpReset => Sys2Proof.Machine.execFpReset s
  | .fpSetIntron B => Sys2Proof.Machine.execFpSetIntron B s
  | .fpProcess B => Sys2Proof.Machine.execFpProcess B s
  | .fpStatus => Sys2Proof.Machine.execFpStatus s

end Sys2Proof.Machine
end

