-- ==== Sys2Proof/Machine/Step.lean ====
section
/-! DEFINITION. One step of the core between two commands: hardware reset if its input is asserted (R230), else one whole
command packet from the command port (R60, R70), else waiting (R232). -/

namespace Sys2Proof.Machine

/-- One step. A complete packet is taken off the command port and decoded; a legal one is executed, an illegal one
answered (R74); with no complete packet the core waits and holds its state (R219, R232; log 2). -/
def step (s : State) : Host.Outcome State Fault Refusal :=
  if s.rst then .next (hardReset Config.params s)
  else match fetchPacket s.cmd with
    | none => .next s
    | some (pkt, rest) =>
      match decode Config.params pkt with
      | .ok i => exec i { s with cmd := rest }
      | .error _ => .next (answerIllegal { s with cmd := rest })

/-- The state with an opcode-table word's packet put on the command port ahead of what stands there, and the reset input
released, so that the next step takes and runs exactly it (log 13). -/
def State.withFetchWord (s : State) (nbits w : Nat) : State :=
  { s with rst := false, cmd := packetBeats (tablePacket nbits w) ++ s.cmd }

end Sys2Proof.Machine
end

