-- ==== Sys2Proof/Machine/Assembler.lean ====
section
/-! DEFINITION. The written form of commands (R79) and the two pseudo-commands (R80). -/

namespace Sys2Proof.Machine

/-- `cs.sum B` (R80): `cs.reset`, `cs.update B`, `cs.get`. -/
def csSum (B : List Byte) : List Instr := [.csReset, .csUpdate B, .csGet]

/-- Consecutive pieces of `k` bytes, the last may be shorter; the first argument bounds their number. -/
def pieces : Nat → Nat → List Byte → List (List Byte)
  | 0, _, _ => []
  | _ + 1, _, [] => []
  | n + 1, k, b :: bs => (b :: bs).take k :: pieces n k ((b :: bs).drop k)

/-- `fp.feed k B` (R80), for `k >= 1`: one `fp.process` per piece; none for `k = 0`, which R80 excludes. -/
def fpFeed (k : Nat) (B : List Byte) : Option (List Instr) :=
  if k = 0 then none else some ((pieces B.length k B).map .fpProcess)

/-- The mnemonic in lower case (R79). -/
def mnemonicText : Opcode → List Char
  | .csReset => ['c', 's', '.', 'r', 'e', 's', 'e', 't']
  | .csUpdate => ['c', 's', '.', 'u', 'p', 'd', 'a', 't', 'e']
  | .csGet => ['c', 's', '.', 'g', 'e', 't']
  | .fpReset => ['f', 'p', '.', 'r', 'e', 's', 'e', 't']
  | .fpSetIntron => ['f', 'p', '.', 's', 'e', 't', 'i', 'n', 't', 'r', 'o', 'n']
  | .fpProcess => ['f', 'p', '.', 'p', 'r', 'o', 'c', 'e', 's', 's']
  | .fpStatus => ['f', 'p', '.', 's', 't', 'a', 't', 'u', 's']

/-- A hexadecimal digit, upper case as the spec writes byte strings (R12). -/
def hexChar (n : Nat) : Char := if n < 10 then Char.ofNat (48 + n) else Char.ofNat (55 + n)

/-- A byte as two hexadecimal digits (R12). -/
def hexByte (b : Byte) : List Char := [hexChar (b.toNat / 16), hexChar (b.toNat % 16)]

/-- A command as one line: the mnemonic, then each payload byte after a space (R79). -/
def renderLine (i : Instr) : List Char := mnemonicText i.opcode ++ i.payload.flatMap fun b => ' ' :: hexByte b

/-- The value of a hexadecimal digit of either case (log 15). -/
def hexValue (c : Char) : Option Nat :=
  if 48 ≤ c.toNat ∧ c.toNat ≤ 57 then some (c.toNat - 48)
  else if 65 ≤ c.toNat ∧ c.toNat ≤ 70 then some (c.toNat - 55)
  else if 97 ≤ c.toNat ∧ c.toNat ≤ 102 then some (c.toNat - 87)
  else none

/-- Whether a byte or a mnemonic may end here: at the end of the line, a space or a comment. -/
def atBreak : List Char → Bool
  | [] => true
  | c :: _ => c == ' ' || c == ';'

/-- The payload of a line (R79): two-digit hexadecimal bytes separated by spaces, and double-quoted strings standing for
their ASCII bytes; a semicolon outside a string starts a comment. The first argument: inside a string. DESIGN CHOICE (log 15):
R79 does not say what may stand right after a closing quote; here a byte, another string or a comment may follow it without a
space, while a byte must be followed by a break. -/
def parsePayload : Bool → List Char → Option (List Byte)
  | false, [] => some []
  | true, [] => none
  | true, c :: cs =>
    if c.toNat = 34 then parsePayload false cs
    else if c.toNat < 128 then (parsePayload true cs).map (BitVec.ofNat 8 c.toNat :: ·)
    else none
  | false, [c] => if c = ' ' ∨ c = ';' then some [] else none
  | false, c :: d :: cs =>
    if c = ' ' then parsePayload false (d :: cs)
    else if c = ';' then some []
    else if c.toNat = 34 then parsePayload true (d :: cs)
    else match hexValue c, hexValue d with
      | some x, some y =>
        if atBreak cs then (parsePayload false cs).map (BitVec.ofNat 8 (16 * x + y) :: ·) else none
      | _, _ => none

/-- What follows a mnemonic in a line, if the line begins with it. -/
def afterMnemonic : List Char → List Char → Option (List Char)
  | [], cs => if atBreak cs then some cs else none
  | _ :: _, [] => none
  | m :: ms, c :: cs => if m = c then afterMnemonic ms cs else none

/-- The packet a line is encoded as: the opcode byte of its mnemonic, then the payload bytes (R79). The packet need not be
legal. -/
def parseLine (cs : List Char) : Option Packet :=
  Opcode.all.findSome? fun o =>
    match afterMnemonic (mnemonicText o) cs with
    | none => none
    | some rest => (parsePayload false rest).map fun B => ⟨o.byte, B⟩

end Sys2Proof.Machine
end

