-- ==== Sys2Proof/Reference.lean ====
section
/-! DEFINITION. What the statements compare the machine with, written from the rules apart from the machine: the flat and the
closed form of the checksum (R103, R106, R111), the byte-serial parser (R169), the grammar of events (R189), the legality of
a packet (R74). Nothing here is part of a step. -/

namespace Sys2Proof.Machine

/-- The 16-bit words of a byte sequence, as numbers, first byte low (R51); an unpaired last byte is left out. -/
def wordPairs : List Byte → List Nat
  | lo :: hi :: bs => (lo.toNat + 256 * hi.toNat) :: wordPairs bs
  | _ => []

/-- `STEP((s0, s1), w)` (R103). -/
def sumStep (s : Nat × Nat) (w : Nat) : Nat × Nat :=
  let s0 := (s.1 + w) % 65535
  (s0, (s.2 + s0) % 65535)

/-- One word added to the exact sums, without reduction (R108). -/
def exactStep (s : Nat × Nat) (w : Nat) : Nat × Nat := (s.1 + w, s.2 + (s.1 + w))

/-- The flat definition of CSA_UPDATE (R106). -/
def csaFlat (A : Csa) (B : List Byte) : Csa :=
  let S := (if A.pendV then [A.pendB] else []) ++ B
  let sums := (wordPairs S).foldl sumStep (A.c0.toNat, A.c1.toNat)
  { c0 := BitVec.ofNat 16 sums.1
    c1 := BitVec.ofNat 16 sums.2
    pendV := S.length % 2 == 1
    pendB := if S.length % 2 = 1 then S.getLastD 0 else 0 }

/-- A stream with one zero byte appended if its length is odd: `X'` of R111. -/
def padEven (X : List Byte) : List Byte := if X.length % 2 = 1 then X ++ [0] else X

/-- `sum over k of (m - k) * w_k` (R111). -/
def weightedSum : List Nat → Nat
  | [] => 0
  | w :: ws => (ws.length + 1) * w + weightedSum ws

/-- The closed form of the checksum of a stream fed since the last reset (R111), as a number: first sum low. -/
def fletcher (X : List Byte) : Nat :=
  let ws := wordPairs (padEven X)
  ws.sum % 65535 + 65536 * (weightedSum ws % 65535)

/-- The bytes of a header part at addresses from `a` on that the checksum covers, in index order (R156). -/
def covered (P : Params) : Nat → List Byte → List Byte
  | _, [] => []
  | a, b :: bs => if P.hdrCov a then b :: covered P (a + 1) bs else covered P (a + 1) bs

/-- Acceptance of a header (R158): the answer beat is 0x01, the type is recognised, the length is possible for it. -/
abbrev Accepts (P : Params) (h : List Byte) (a : Answer) : Prop :=
  a = .beat 1 ∧ P.hdrType h ∈ P.types ∧ P.lenValid (P.hdrType h) (P.hdrBlen h) = true

/-- Body completion (R161) in one record. -/
def endBody (P : Params) (s : State) : State :=
  let v : Bool := decide (csaGet s.csp = P.hdrCksum (s.header P))
  { s with
    valid := v, cnt := 0, st := .intron,
    out := s.out ++ [.event (.complete v), .event (.typeHook (P.hdrType (s.header P)).toNat v)] }

/-- Drain completion (R165) in one record. -/
def endDrain (s : State) : State := { s with cnt := 0, st := .intron, out := s.out ++ [.event .invalid] }

/-- `FP_BYTE(b)` by rest state (R169). -/
def fpByte (P : Params) (b : Byte) (s : State) : Except Fault State :=
  match s.st with
  | .intron =>
    if s.intron[s.mpos]? = some b then
      if s.mpos + 1 = P.intronLen then
        .ok { s with mpos := 0, scratch := [], cnt := 0, csp := Csa.zero, st := .header, out := s.out ++ [.event .resetFrame] }
      else .ok { s with mpos := s.mpos + 1 }
    else if 0 < s.mpos ∧ s.intron[0]? = some b then .ok { s with mpos := 1 }
    else .ok { s with mpos := 0 }
  | .header =>
    let s1 := { s with
      scratch := s.scratch.write s.cnt b, csp := if P.hdrCov s.cnt then csaUpdate s.csp [b] else s.csp, cnt := s.cnt + 1 }
    if s1.cnt < P.hdrLen then .ok s1
    else match s1.answers with
      | [] => .error .beginUnanswered
      | a :: as =>
        let h := s1.header P
        let s2 := { s1 with cnt := 0, answers := as, out := s1.out ++ [.event (.beginFrame h)] }
        if (P.hdrBlen h).toNat = 0 then
          if Accepts P h a then .ok (endBody P s2) else .ok (endDrain s2)
        else .ok { s2 with st := if Accepts P h a then .data else .throwAway }
  | .data =>
    let s1 := { s with csp := csaUpdate s.csp [b], cnt := s.cnt + 1, out := s.out ++ [.event (.body [b])] }
    if s1.cnt < (P.hdrBlen (s.header P)).toNat then .ok s1 else .ok (endBody P s1)
  | .throwAway =>
    let s1 := { s with cnt := s.cnt + 1 }
    if s1.cnt < (P.hdrBlen (s.header P)).toNat then .ok s1 else .ok (endDrain s1)

/-- The fold of `FP_BYTE` over a payload (R169). -/
def fpBytes (P : Params) : List Byte → State → Except Fault State
  | [], s => .ok s
  | b :: bs, s =>
    match fpByte P b s with
    | .error f => .error f
    | .ok t => fpBytes P bs t

/-- Successive FP.PROCESS payloads, without their responses (R144). -/
def fpCalls (P : Params) : List (List Byte) → State → Except Fault State
  | [], s => .ok s
  | B :: Bs, s =>
    match fpRun P B s with
    | .error f => .error f
    | .ok (_, t) => fpCalls P Bs t

/-- Adjacent BODY events joined into one (R144, R185). -/
def joinBodies : List Event → List Event
  | [] => []
  | e :: es =>
    match e, joinBodies es with
    | .body d, .body d' :: rest => .body (d ++ d') :: rest
    | e, rest => e :: rest

/-- Two states with the same registers and inputs; the outputs are compared separately. -/
abbrev SameButOut (s t : State) : Prop := { s with out := [] } = { t with out := [] }

/-- The bit of the last COMPLETE event, if there is one. -/
def lastComplete : List Event → Option Bool
  | [] => none
  | .complete v :: es => (lastComplete es).or (some v)
  | .resetFrame :: es | .beginFrame _ :: es | .body _ :: es | .typeHook _ _ :: es | .invalid :: es => lastComplete es

/-- How many BEGIN events a sequence holds. -/
def beginCount : List Event → Nat
  | [] => 0
  | .beginFrame _ :: es => beginCount es + 1
  | .resetFrame :: es | .complete _ :: es | .body _ :: es | .typeHook _ _ :: es | .invalid :: es => beginCount es

/-- Where a sequence of events stands in its current frame record (R189). -/
inductive Phase where
  /-- Between records. -/
  | between
  /-- After RESET_FRAME. -/
  | opened
  /-- After BEGIN(`h`), with the body bytes `d` so far. -/
  | begun (h d : List Byte)
  /-- After COMPLETE(`v`) for the header `h`. -/
  | completed (h : List Byte) (v : Bool)
  deriving DecidableEq, Repr

/-- One event of a frame record (R189): none where the record's form does not allow it. -/
def Phase.next (P : Params) : Phase → Event → Option Phase
  | .between, .resetFrame => some .opened
  | .opened, .beginFrame h => some (.begun h [])
  | .begun h d, .body d' =>
    if d' ≠ [] ∧ (d ++ d').length ≤ (P.hdrBlen h).toNat then some (.begun h (d ++ d')) else none
  | .begun h d, .complete v => if d.length = (P.hdrBlen h).toNat then some (.completed h v) else none
  | .begun _ d, .invalid => if d = [] then some .between else none
  | .completed h v, .typeHook tag v' =>
    if tag = (P.hdrType h).toNat ∧ P.hdrType h ∈ P.types ∧ v' = v then some .between else none
  | _, _ => none

/-- A sequence of events of frame records (R189). -/
def Phase.run (P : Params) : Phase → List Event → Option Phase
  | p, [] => some p
  | p, e :: es =>
    match p.next P e with
    | none => none
    | some q => q.run P es

/-- The place in the frame record that a parser state stands for: what has been told to the FH of the current frame. -/
def Phase.fits (P : Params) (p : Phase) (s : State) : Prop :=
  match p with
  | .between => s.st = .intron
  | .opened => s.st = .header
  | .begun h d => h = s.header P ∧ ((s.st = .data ∧ d.length = s.cnt) ∨ (s.st = .throwAway ∧ d = []))
  | .completed _ _ => False

/-- An illegal packet (R74): (a) an opcode outside the map, (b) a payload on a format-N command, (c) an FP.SETINTRON payload
of another length than `INTRON_LEN`. -/
abbrev IllegalPacket (P : Params) (pkt : Packet) : Prop :=
  pkt.op ∉ [0x00, 0x01, 0x02, 0x10, 0x11, 0x12, (0x13 : Byte)]
    ∨ (pkt.op ∈ [0x00, 0x02, 0x10, (0x13 : Byte)] ∧ pkt.payload ≠ [])
    ∨ (pkt.op = 0x11 ∧ pkt.payload.length ≠ P.intronLen)

/-- The number a byte sequence writes, least significant byte first. -/
def leValue : List Byte → Nat
  | [] => 0
  | b :: bs => b.toNat + 256 * leValue bs

end Sys2Proof.Machine
end

