-- ==== Sys2Proof/Safety.lean ====
section
/-! DEFINITION. What holds between commands: the reduced accumulators (R22, R23), the scratch buffer's form (R33), the rest
states (R42, R142), and the one way a step may stop (R193). -/

namespace Sys2Proof.Machine

/-- An accumulator between unit operations (R22, R23): both sums reduced, the pending byte 0 when none is pending. -/
abbrev CsaOk (A : Csa) : Prop :=
  A.c0.toNat < 65535 ∧ A.c1.toNat < 65535 ∧ (A.pendV = false → A.pendB = 0)

/-- The scratch buffer holds its canonical form and nothing outside its addresses (R33, R50). -/
abbrev ScratchOk (P : Params) (m : Memory) : Prop := m.wf ∧ m.below P.hdrLen

/-- The four lines of the rest-state table (R42, R142). In ST_DATA the frame has also been accepted, so its type is
recognised and its length possible (R158). -/
abbrev AtRest (P : Params) (s : State) : Prop :=
  (s.st = .intron → s.mpos < P.intronLen ∧ s.cnt = 0)
    ∧ (s.st = .header → s.mpos = 0 ∧ s.cnt < P.hdrLen ∧ s.scratch.below s.cnt)
    ∧ (s.st = .data → s.mpos = 0 ∧ s.cnt < s.bodyLen P ∧ s.tag P ∈ P.types
        ∧ P.lenValid (s.tag P) (P.hdrBlen (s.header P)) = true)
    ∧ (s.st = .throwAway → s.mpos = 0 ∧ s.cnt < s.bodyLen P)

/-- The invariant of the state between commands. -/
abbrev Inv (P : Params) (s : State) : Prop :=
  CsaOk s.csh ∧ CsaOk s.csp ∧ s.intron.length = P.intronLen ∧ ScratchOk P s.scratch ∧ AtRest P s

/-- A safe outcome: the core goes on, or it waits for an FH that never answers (R193); no other stop exists (R200). -/
def SafeOutcome (o : Host.Outcome State Fault Refusal) : Prop :=
  match o with
  | .next _ => True
  | .fault f => f = .beginUnanswered
  | .refused _ => False

end Sys2Proof.Machine
end

