-- ==== Sys2Proof/Certificates/Slice0/Obligations.lean ====
section
/-! DEFINITION. The statements for the provers, each from the numbered rules its docstring cites. A statement with `P` is for
every assignment of the open parameters (R9); the core's own is `Config.params` (log 1). -/

open Sys2Proof Sys2Proof.Machine

/-! ## Encoding (30_encoding.md) -/

/-- A legal command put on the command port as the beats of its packet, whatever stands behind it, is taken off as that packet
and decodes to the command (R70 to R73). -/
def Obligations.DecodeEncodeRoundTrip : Prop :=
  ∀ (P : Params) (i : Instr) (rest : List Beat), i.wellFormed P = true →
    ∃ pkt : Packet, fetchPacket (packetBeats (encode i) ++ rest) = some (pkt, rest) ∧ decode P pkt = .ok i
      ∧ pkt = encode i

/-- A decoded packet is exactly the packet of a legal command (R74, R82). -/
def Obligations.DecodedPacketIsEncoding : Prop :=
  ∀ (P : Params) (pkt : Packet) (i : Instr), decode P pkt = .ok i → encode i = pkt ∧ i.wellFormed P = true

/-- The decoder rejects a packet exactly when R74 calls it illegal. -/
def Obligations.RejectsExactlyIllegalPackets : Prop :=
  ∀ (P : Params) (pkt : Packet), (∃ r, decode P pkt = .error r) ↔ IllegalPacket P pkt

/-- R74: an illegal packet is consumed whole, changes nothing else, emits no event and is answered ILLEGAL. -/
def Obligations.IllegalPacketIsAnswered : Prop :=
  ∀ (s : State) (pkt : Packet) (rest : List Beat),
    s.rst = false → fetchPacket s.cmd = some (pkt, rest) → IllegalPacket Config.params pkt →
      step s = .next { s with cmd := rest, out := s.out ++ [.response ⟨.illegal, []⟩] }

/-- R70: a packet ends at the first beat with `last`; beat 0 is the opcode, the other beats are the payload; the beats after it
stay on the port. Without a beat that has `last`, no packet has come. -/
def Obligations.FramedPacketIsTaken : Prop :=
  (∀ (bs rest : List Beat) (b : Beat), (∀ c ∈ bs, c.last = false) → b.last = true →
      ∃ pkt : Packet, fetchPacket (bs ++ b :: rest) = some (pkt, rest)
        ∧ pkt.op :: pkt.payload = bs.map Beat.data ++ [b.data])
    ∧ ∀ bs : List Beat, (∀ c ∈ bs, c.last = false) → fetchPacket bs = none

/-- A few packets written out from R72: opcode byte, then payload. -/
def Obligations.WrittenPacketsDecode : Prop :=
  ∀ P : Params,
    decode P ⟨0x00, []⟩ = .ok .csReset
      ∧ decode P ⟨0x01, [0x61, 0x62, 0x63]⟩ = .ok (.csUpdate [0x61, 0x62, 0x63])
      ∧ decode P ⟨0x12, [0xA5]⟩ = .ok (.fpProcess [0xA5])
      ∧ decode P ⟨0x13, []⟩ = .ok .fpStatus

/-- R79: reading the written line of a command gives the command's packet. -/
def Obligations.WrittenLineReadsBack : Prop :=
  ∀ i : Instr, parseLine (renderLine i) = some (encode i)

/-! ## Steps, ports and reset -/

/-- A step runs the decoded command on the state with the packet taken off the command port (R60, R70). -/
def Obligations.StepRunsDecodedCommand : Prop :=
  ∀ (s : State) (pkt : Packet) (rest : List Beat) (i : Instr),
    s.rst = false → fetchPacket s.cmd = some (pkt, rest) → decode Config.params pkt = .ok i →
      step s = exec i { s with cmd := rest }

/-- With no complete packet on the command port the core waits. The model's choice of a step that changes nothing: log 2. -/
def Obligations.CoreWaitsWithoutPacket : Prop :=
  ∀ s : State, s.rst = false → fetchPacket s.cmd = none → step s = .next s

/-- R76: a command, legal or not, gives exactly one response, after all its events; only FP.PROCESS has events (R180). -/
def Obligations.OneResponseAfterAllEvents : Prop :=
  ∀ (s t : State) (pkt : Packet) (rest : List Beat),
    s.rst = false → fetchPacket s.cmd = some (pkt, rest) → step s = .next t →
      ∃ (evs : List Event) (r : Response),
        t.out = s.out ++ evs.map .event ++ [.response r] ∧ (pkt.op ≠ 0x12 → evs = [])

/-- R43, R231: the values hardware reset leaves, and how FP.RESET, FP.SETINTRON and CS.RESET compare with it. That a step
performs the reset and keeps the ports is the model's form of the reset input: log 6. -/
def Obligations.ResetsCompared : Prop :=
  (∀ s : State, s.rst = true → ∃ t, step s = .next t
      ∧ t.csh = ⟨0, 0, false, 0⟩ ∧ t.csp = ⟨0, 0, false, 0⟩ ∧ t.st = .intron ∧ t.mpos = 0 ∧ t.cnt = 0
      ∧ t.intron = Config.params.intronReset.toList ∧ t.valid = false ∧ (∀ a, t.scratch.read a = 0) ∧ t.out = s.out
      ∧ { State.reset with rst := t.rst, cmd := t.cmd, answers := t.answers, out := t.out } = t)
    ∧ (∀ s : State, ∃ t, exec .fpReset s = .next t
        ∧ t = { State.reset with
            csh := s.csh, intron := s.intron, rst := s.rst, cmd := s.cmd, answers := s.answers,
            out := s.out ++ [.response ⟨.ok, []⟩] })
    ∧ (∀ (s : State) (B : List Byte), B.length = Config.params.intronLen → ∃ t, exec (.fpSetIntron B) s = .next t
        ∧ t = { State.reset with
            csh := s.csh, intron := B, rst := s.rst, cmd := s.cmd, answers := s.answers,
            out := s.out ++ [.response ⟨.ok, []⟩] })
    ∧ ∀ s : State, ∃ t, exec .csReset s = .next t
        ∧ t = { s with csh := State.reset.csh, out := s.out ++ [.response ⟨.ok, []⟩] }

/-- The only stop of any command or step is the wait for a BEGIN answer that never comes, and only FP.PROCESS has it (R193,
R200). -/
def Obligations.OnlyUnansweredBeginStops : Prop :=
  (∀ i s, SafeOutcome (exec i s))
    ∧ (∀ s, SafeOutcome (step s))
    ∧ ∀ i s f, exec i s = .fault f → ∃ B, i = .fpProcess B

/-! ## The checksum accumulator (40_checksum_accumulator.md) -/

/-- R113: CS.RESET, opcode 0x00 without payload, zeroes CSH, drops its pending byte and changes nothing else. -/
def Obligations.CsResetResult : Prop :=
  (∀ P : Params, decode P ⟨0x00, []⟩ = .ok .csReset)
    ∧ ∀ s : State, exec .csReset s
      = .next { s with csh := ⟨0, 0, false, 0⟩, out := s.out ++ [.response ⟨.ok, []⟩] }

/-- R106, R107: CS.UPDATE, computed in 32-bit passes of at most 360 words, leaves CSH as the flat definition says and changes
nothing else; its packet is opcode 0x01 with any payload (R114). -/
def Obligations.CsUpdateRefinesFlatForm : Prop :=
  (∀ (P : Params) (B : List Byte), decode P ⟨0x01, B⟩ = .ok (.csUpdate B))
    ∧ ∀ (s : State) (B : List Byte), CsaOk s.csh →
    exec (.csUpdate B) s = .next { s with csh := csaFlat s.csh B, out := s.out ++ [.response ⟨.ok, []⟩] }

/-- R110, R115: CS.GET, opcode 0x02 without payload, answers the four bytes of `t0 | (t1 << 16)`, low first, with a pending byte folded in, and writes
nothing. -/
def Obligations.CsGetResult : Prop :=
  (∀ P : Params, decode P ⟨0x02, []⟩ = .ok .csGet) ∧ ∀ s : State,
    let t0 := if s.csh.pendV then (s.csh.c0.toNat + s.csh.pendB.toNat) % 65535 else s.csh.c0.toNat
    let t1 := if s.csh.pendV then (s.csh.c1.toNat + t0) % 65535 else s.csh.c1.toNat
    exec .csGet s = .next { s with out := s.out ++ [.response ⟨.ok,
      [BitVec.ofNat 8 t0, BitVec.ofNat 8 (t0 / 256), BitVec.ofNat 8 t1, BitVec.ofNat 8 (t1 / 256)]⟩] }

/-- R108: in a pass of at most 360 words from reduced registers the 32-bit registers hold the exact sums, at most 23 658 134
and 4 282 122 074; the bounds are reached, and 361 words can exceed 32 bits. -/
def Obligations.PassNeverOverflows : Prop :=
  (∀ (r : PassRegs) (k : Nat) (B : List Byte),
      r.a0.toNat ≤ 65534 → r.a1.toNat ≤ 65534 → k ≤ 360 → 2 * k ≤ B.length →
        ∃ q : PassRegs, passWords k r B = (q, B.drop (2 * k))
          ∧ (q.a0.toNat, q.a1.toNat) = (wordPairs (B.take (2 * k))).foldl exactStep (r.a0.toNat, r.a1.toNat)
          ∧ q.a0.toNat ≤ 23658134 ∧ q.a1.toNat ≤ 4282122074)
    ∧ (List.replicate 360 65535).foldl exactStep (65534, 65534) = (23658134, 4282122074)
    ∧ 2 ^ 32 ≤ ((List.replicate 361 65535).foldl exactStep (65534, 65534)).2

/-- R22, R23: both sums stay reduced, never 0xFFFF, and the pending byte stays 0 when none is pending. That both halves of the
result are reduced too is the spec's inference in R110, from R101(c). -/
def Obligations.SumsStayReduced : Prop :=
  ∀ (A : Csa) (B : List Byte), CsaOk A →
    CsaOk (csaUpdate A B) ∧ CsaOk (csaReset A)
      ∧ (csaGet A).toNat % 65536 < 65535 ∧ (csaGet A).toNat / 65536 < 65535

/-- R109: however a stream is cut into updates, the accumulator ends in the same state. -/
def Obligations.ChecksumIsChunkInvariant : Prop :=
  ∀ (A : Csa) (Bs : List (List Byte)), CsaOk A → Bs.foldl csaUpdate A = csaUpdate A Bs.flatten

/-- R111: the checksum of a stream fed since the last reset, in any pieces, is the closed form. -/
def Obligations.ChecksumClosedForm : Prop :=
  ∀ Bs : List (List Byte), (csaGet (Bs.foldl csaUpdate Csa.zero)).toNat = fletcher Bs.flatten

/-- R112 (a) to (e). -/
def Obligations.ChecksumConsequences : Prop :=
  (∀ A : Csa, csaGet (csaReset A) = 0)
    ∧ (∀ X : List Byte, (∀ w ∈ wordPairs (padEven X), w = 0 ∨ w = 0xFFFF) → csaGet (csaUpdate Csa.zero X) = 0)
    ∧ (∀ (X : List Byte) (n : Nat), X.length % 2 = 0 →
        let g := (csaGet (csaUpdate Csa.zero X)).toNat
        (csaGet (csaUpdate Csa.zero (X ++ List.replicate (2 * n) 0))).toNat
          = g % 65536 + 65536 * ((g / 65536 + n * (g % 65536)) % 65535))
    ∧ (∀ X : List Byte, X.length % 2 = 1 → csaGet (csaUpdate Csa.zero (X ++ [0])) = csaGet (csaUpdate Csa.zero X))
    ∧ ∀ s t u : State, exec .csGet s = .next t → exec .csGet t = .next u →
        ∃ d, t.out = s.out ++ [.response ⟨.ok, d⟩] ∧ u.out = t.out ++ [.response ⟨.ok, d⟩]

/-- R116: the divider-free remainder. -/
def Obligations.FoldedRemainderIsExact : Prop :=
  ∀ x : Word32, (foldHalves (foldHalves x)).toNat ≤ 65535 ∧ (foldRemainder x).toNat = x.toNat % 65535

/-- R80: cs.sum gives the closed form of its bytes, whatever CSH held; fp.feed cuts its bytes, in order, into pieces of `k`
bytes, only the last shorter. -/
def Obligations.PseudoCommandsExpand : Prop :=
  (∀ (B : List Byte) (s : State),
      csSum B = [.csReset, .csUpdate B, .csGet] ∧
      ∃ t u v, exec .csReset s = .next t ∧ exec (.csUpdate B) t = .next u ∧ exec .csGet u = .next v
        ∧ v.out = u.out ++ [.response ⟨.ok, le32 (BitVec.ofNat 32 (fletcher B))⟩])
    ∧ ∀ (k : Nat) (B : List Byte), 0 < k → ∃ Bs : List (List Byte),
        fpFeed k B = some (Bs.map .fpProcess) ∧ Bs.flatten = B
          ∧ (∀ C ∈ Bs, C ≠ [] ∧ C.length ≤ k) ∧ ∀ C ∈ Bs.dropLast, C.length = k

/-! ## The parser's commands (41_parser_commands.md) -/

/-- R131: FP.RESET, opcode 0x10 without payload: the parser to its initial state, pattern and CSH kept; no hook event (R132). -/
def Obligations.FpResetResult : Prop :=
  (∀ P : Params, decode P ⟨0x10, []⟩ = .ok .fpReset) ∧ ∀ s : State, exec .fpReset s = .next
    { s with
      st := .intron, mpos := 0, cnt := 0, scratch := [], valid := false, csp := ⟨0, 0, false, 0⟩
      out := s.out ++ [.response ⟨.ok, []⟩] }

/-- R134: FP.SETINTRON, opcode 0x11 with a payload of `INTRON_LEN` bytes, writes the pattern and does what FP.RESET does; no
hook event. -/
def Obligations.FpSetIntronResult : Prop :=
  (∀ (P : Params) (B : List Byte), B.length = P.intronLen → decode P ⟨0x11, B⟩ = .ok (.fpSetIntron B))
    ∧ ∀ (s : State) (B : List Byte), B.length = Config.params.intronLen → exec (.fpSetIntron B) s = .next
      { s with
        intron := B, st := .intron, mpos := 0, cnt := 0, scratch := [], valid := false, csp := ⟨0, 0, false, 0⟩
        out := s.out ++ [.response ⟨.ok, []⟩] }

/-- R135(b): an FP.SETINTRON of another length changes nothing and is answered ILLEGAL. The decoder already refuses its packet
(R74(c)); that `exec` answers the ill-formed command the same way is the model's form: log 12. -/
def Obligations.WrongIntronLengthChangesNothing : Prop :=
  ∀ (s : State) (B : List Byte), B.length ≠ Config.params.intronLen →
    exec (.fpSetIntron B) s = .next { s with out := s.out ++ [.response ⟨.illegal, []⟩] }

/-- R145: FP.STATUS, opcode 0x13 without payload, answers one byte, bits 1:0 = `st` (R28), bit 2 = `valid`, bits 7:3 = 0, and writes nothing. -/
def Obligations.FpStatusResult : Prop :=
  (∀ P : Params, decode P ⟨0x13, []⟩ = .ok .fpStatus) ∧ ∀ s : State, ∃ b : Byte,
    exec .fpStatus s = .next { s with out := s.out ++ [.response ⟨.ok, [b]⟩] }
      ∧ b.toNat % 4 = (match s.st with | .intron => 0 | .header => 1 | .data => 2 | .throwAway => 3)
      ∧ b.toNat / 4 % 2 = s.valid.toNat ∧ b.toNat / 8 = 0

/-- R137: opcode 0x12 with any payload is FP.PROCESS, and it runs the parser at the core's own parameters (log 1). -/
def Obligations.ProcessRunsAtOwnParameters : Prop :=
  (∀ (P : Params) (B : List Byte), decode P ⟨0x12, B⟩ = .ok (.fpProcess B))
    ∧ ∀ (B : List Byte) (s : State), exec (.fpProcess B) s = fpProcess Config.params B s

/-- R200, R36, R37: FP.PROCESS completes with status OK for every payload and every state, when an answer stands ready for
each BEGIN it can emit; it takes one answer per BEGIN (R183), and leaves CSH, `intron` and the ports' inputs alone. -/
def Obligations.FpProcessCompletes : Prop :=
  ∀ (s : State) (B : List Byte), B.length < s.answers.length →
    ∃ (t : State) (evs : List Event), exec (.fpProcess B) s = .next t
      ∧ t.out = s.out ++ evs.map .event ++ [.response ⟨.ok, []⟩]
      ∧ beginCount evs ≤ B.length + 1 ∧ t.answers = s.answers.drop (beginCount evs)
      ∧ t.csh = s.csh ∧ t.intron = s.intron ∧ t.rst = s.rst ∧ t.cmd = s.cmd

/-- R193: a header that completes with no BEGIN answer to come stops the core. -/
def Obligations.UnansweredBeginHasNoStep : Prop :=
  ∀ (P : Params) (s : State) (B : List Byte),
    s.st = .header → P.hdrLen ≤ s.cnt + B.length → s.answers = [] → fpProcess P B s = .fault .beginUnanswered

/-- R139: the loop ends within `3 * (n div INTRON_LEN) + 6` rounds, for every payload, state and answers. -/
def Obligations.LoopEndsWithinBound : Prop :=
  ∀ (P : Params) (B : List Byte) (s : State),
    fpLoop P (3 * (B.length / P.intronLen) + 6) B s ≠ .error .loopBound
      ∧ fpLoop P (3 * (B.length / P.intronLen) + 6) B s = fpRun P B s

/-- R138: a round that needs more input has consumed every byte and its completion condition is not met (in ST_INTRON: for a
pattern of `INTRON_LEN` bytes and a position in it, the position is still short of a full match); a round that advances has made one of the five transitions, and leaves a suffix of the payload. -/
def Obligations.RoundNeedsMoreOrAdvances : Prop :=
  ∀ (P : Params) (B : List Byte) (s : State) (r : Round), fpRound P B s = .ok r →
    match r with
    | .needMore rest t =>
      rest = [] ∧ t.st = s.st
        ∧ (s.st = .intron → s.intron.length = P.intronLen → s.mpos < P.intronLen → t.mpos < P.intronLen)
        ∧ (s.st = .header → t.cnt < P.hdrLen) ∧ (s.st = .data ∨ s.st = .throwAway → t.cnt < s.bodyLen P)
    | .advanced rest t =>
      rest <:+ B
        ∧ (s.st, t.st) ∈ [(FsmState.intron, FsmState.header), (.header, .data), (.header, .throwAway), (.data, .intron),
            (.throwAway, .intron)]

/-- R141: when FP.PROCESS ends, every byte of the payload has been consumed. -/
def Obligations.EveryByteIsConsumed : Prop :=
  ∀ (P : Params) (B rest : List Byte) (s t : State), fpRun P B s = .ok (rest, t) → rest = []

/-- R143, R105: an empty FP.PROCESS in a rest state and an empty update change nothing. -/
def Obligations.EmptyPayloadChangesNothing : Prop :=
  (∀ (P : Params) (s : State), Inv P s →
      fpProcess P [] s = .next { s with out := s.out ++ [.response ⟨.ok, []⟩] })
    ∧ ∀ A : Csa, csaUpdate A [] = A

/-! ## The four-state machine (42_parser_fsm.md) -/

/-- R154: at the byte that completes the pattern: scratch and counter cleared, CSP reset, RESET_FRAME, ST_HEADER; `valid` kept
(D15). -/
def Obligations.FullMatchStartsFrame : Prop :=
  ∀ (P : Params) (s : State) (b : Byte),
    s.st = .intron → s.mpos + 1 = P.intronLen → s.intron[s.mpos]? = some b →
      fpProcess P [b] s = .next
        { s with
          mpos := 0, scratch := [], cnt := 0, csp := ⟨0, 0, false, 0⟩, st := .header
          out := s.out ++ [.event .resetFrame, .response ⟨.ok, []⟩] }

/-- R171: the search is sound. After any bytes, the last `mpos` consumed are the pattern's first `mpos`; a full match is
reported only when the last `INTRON_LEN` bytes consumed are the pattern. -/
def Obligations.IntronMatchIsSound : Prop :=
  ∀ (P : Params) (B : List Byte) (s : State),
    s.intron.length = P.intronLen → s.mpos < P.intronLen →
      match stepIntron P B s with
      | .needMore _ t => t.mpos < P.intronLen ∧ s.intron.take t.mpos <:+ s.intron.take s.mpos ++ B
      | .advanced rest _ => ∃ u, B = u ++ rest ∧ s.intron <:+ s.intron.take s.mpos ++ u

/-- R171: when the pattern's first byte does not recur in it, every occurrence that begins in ST_INTRON is found. -/
def Obligations.UniqueFirstByteIsFound : Prop :=
  ∀ (P : Params) (G R : List Byte) (s s1 : State),
    s.intron.length = P.intronLen → (∀ j, 0 < j → s.intron[j]? ≠ s.intron[0]?) → stepIntron P G s = .needMore [] s1 →
      ∃ t, stepIntron P (G ++ s.intron ++ R) s = .advanced R t

/-- R171, 90_conflicts.md C1: a self-overlapping pattern misses the intron that overlaps a failed partial match. -/
def Obligations.SelfOverlapMissesIntron : Prop :=
  ∀ (P : Params) (s : State),
    P.intronLen = 4 → s.st = .intron → s.mpos = 0 → s.intron = [0x55, 0x4E, 0x55, 0x58] →
      fpProcess P [0x55, 0x4E, 0x55, 0x4E, 0x55, 0x58] s = .next { s with out := s.out ++ [.response ⟨.ok, []⟩] }

/-- R156: header bytes that do not complete the header are stored at consecutive addresses from `cnt`, every other byte of
scratch is unchanged, the covered ones are fed to CSP in order, and no event is emitted. -/
def Obligations.HeaderBytesAreStored : Prop :=
  ∀ (P : Params) (s : State) (B : List Byte),
    Inv P s → s.st = .header → s.cnt + B.length < P.hdrLen →
      ∃ m : Memory,
        fpProcess P B s = .next
          { s with
            scratch := m, csp := csaUpdate s.csp (covered P s.cnt B), cnt := s.cnt + B.length
            out := s.out ++ [.response ⟨.ok, []⟩] }
        ∧ ∀ a, m.read a = if s.cnt ≤ a ∧ a < s.cnt + B.length then B.getD (a - s.cnt) 0 else s.scratch.read a

/-- R157, R158: the byte that completes the header makes the core emit BEGIN with it, read one answer and go to ST_DATA or
ST_THROW. The declared length is not 0 here; for 0 see `ZeroLengthFrameCompletes`. -/
def Obligations.HeaderCompletionAsksHandler : Prop :=
  ∀ (P : Params) (s : State) (H : List Byte) (a : Answer) (as : List Answer),
    Inv P s → s.st = .header → s.cnt + H.length = P.hdrLen → s.answers = a :: as →
      let h := s.scratch.bytes s.cnt ++ H
      (P.hdrBlen h).toNat ≠ 0 →
      ∃ m : Memory, m.bytes P.hdrLen = h ∧
        fpProcess P H s = .next
          { s with
            scratch := m, csp := csaUpdate s.csp (covered P s.cnt H), cnt := 0, answers := as
            st := if Accepts P h a then .data else .throwAway
            out := s.out ++ [.event (.beginFrame h), .response ⟨.ok, []⟩] }

/-- R163, R166: a header declaring length 0 completes its frame in the same command: COMPLETE and TYPE with the checksum of
the covered header bytes alone, or INVALID; no BODY. -/
def Obligations.ZeroLengthFrameCompletes : Prop :=
  ∀ (P : Params) (s : State) (H : List Byte) (a : Answer) (as : List Answer),
    Inv P s → s.st = .header → s.cnt + H.length = P.hdrLen → s.answers = a :: as →
      let h := s.scratch.bytes s.cnt ++ H
      (P.hdrBlen h).toNat = 0 →
      let csp := csaUpdate s.csp (covered P s.cnt H)
      let v := csaGet csp == P.hdrCksum h
      ∃ m : Memory, m.bytes P.hdrLen = h ∧
        fpProcess P H s = .next
          (if Accepts P h a then
            { s with
              scratch := m, csp := csp, cnt := 0, answers := as, st := .intron, valid := v
              out := s.out ++ [.event (.beginFrame h), .event (.complete v), .event (.typeHook (P.hdrType h).toNat v),
                .response ⟨.ok, []⟩] }
          else
            { s with
              scratch := m, csp := csp, cnt := 0, answers := as, st := .intron
              out := s.out ++ [.event (.beginFrame h), .event .invalid, .response ⟨.ok, []⟩] })

/-- R160: body bytes that do not complete the body go to CSP and to the FH in one BODY event. -/
def Obligations.BodyBytesAreStreamed : Prop :=
  ∀ (P : Params) (s : State) (D : List Byte),
    s.st = .data → D ≠ [] → s.cnt + D.length < s.bodyLen P →
      fpProcess P D s = .next
        { s with
          csp := csaUpdate s.csp D, cnt := s.cnt + D.length
          out := s.out ++ [.event (.body D), .response ⟨.ok, []⟩] }

/-- R161, R162: the byte that completes the body: last BODY, then `valid` is the equality of the checksum with the field, then
COMPLETE and TYPE with that bit, then ST_INTRON; a mismatch changes the bit alone. -/
def Obligations.BodyCompletionReports : Prop :=
  ∀ (P : Params) (s : State) (D : List Byte),
    s.st = .data → D ≠ [] → s.cnt + D.length = s.bodyLen P →
      let v : Bool := decide (csaGet (csaUpdate s.csp D) = s.cksumField P)
      fpProcess P D s = .next
        { s with
          csp := csaUpdate s.csp D, valid := v, cnt := 0, st := .intron
          out := s.out ++ [.event (.body D), .event (.complete v), .event (.typeHook (s.tag P).toNat v),
            .response ⟨.ok, []⟩] }

/-- R164 to R166: drained bytes are only counted; the last of them brings INVALID and ST_INTRON; CSP, `valid` and scratch stay. -/
def Obligations.DrainOnlyCounts : Prop :=
  ∀ (P : Params) (s : State) (D : List Byte), s.st = .throwAway →
    (s.cnt + D.length < s.bodyLen P →
      fpProcess P D s = .next { s with cnt := s.cnt + D.length, out := s.out ++ [.response ⟨.ok, []⟩] })
    ∧ (s.cnt + D.length = s.bodyLen P →
      fpProcess P D s = .next
        { s with cnt := 0, st := .intron, out := s.out ++ [.event .invalid, .response ⟨.ok, []⟩] })

/-- R169: FP.PROCESS has the effect of its bytes one at a time, the BODY events of a frame joined into one. -/
def Obligations.ByteSerialFormAgrees : Prop :=
  ∀ (P : Params) (s : State) (B : List Byte), Inv P s →
    match fpBytes P B s with
    | .error f => fpRun P B s = .error f
    | .ok u => ∃ (t : State) (evs evs' : List Event),
        fpRun P B s = .ok ([], t) ∧ SameButOut t u
          ∧ t.out = s.out ++ evs.map .event ∧ u.out = s.out ++ evs'.map .event ∧ evs = joinBodies evs'

/-- R144: however a stream is cut into FP.PROCESS payloads, the registers end the same and the events are the same once
adjacent BODY events are joined. -/
def Obligations.ParserIsChunkInvariant : Prop :=
  ∀ (P : Params) (s : State) (Bs : List (List Byte)), Inv P s →
    match fpRun P Bs.flatten s with
    | .error f => fpCalls P Bs s = .error f
    | .ok (_, t) => ∃ (u : State) (evs evs' : List Event),
        fpCalls P Bs s = .ok u ∧ SameButOut t u
          ∧ t.out = s.out ++ evs.map .event ∧ u.out = s.out ++ evs'.map .event ∧ joinBodies evs = joinBodies evs'

/-- R170, properties 7 and 8: an accepted frame, cut anyhow, is delivered exactly once, with the validity bit that says
whether the closed form of the covered header bytes and the body equals the checksum field. -/
def Obligations.AcceptedFrameIsDelivered : Prop :=
  ∀ (P : Params) (s : State) (h D : List Byte) (a : Answer) (as : List Answer) (Bs : List (List Byte)),
    Inv P s → s.st = .intron → s.mpos = 0 → h.length = P.hdrLen → D.length = (P.hdrBlen h).toNat → Accepts P h a →
    s.answers = a :: as → Bs.flatten = s.intron ++ h ++ D →
      let v : Bool := decide (fletcher (covered P 0 h ++ D) = (P.hdrCksum h).toNat)
      ∃ (t : State) (evs : List Event), fpCalls P Bs s = .ok t
        ∧ t.out = s.out ++ evs.map .event
        ∧ joinBodies evs = [.resetFrame, .beginFrame h] ++ (if D = [] then [] else [.body D])
            ++ [.complete v, .typeHook (P.hdrType h).toNat v]
        ∧ t.st = .intron ∧ t.mpos = 0 ∧ t.cnt = 0 ∧ t.valid = v ∧ t.answers = as ∧ t.csh = s.csh ∧ t.intron = s.intron

/-- R170, property 5 with its preconditions: after garbage that holds no intron of its own, with a pattern whose first byte
does not recur, the frame is delivered exactly once. -/
def Obligations.ResynchronisesAfterGarbage : Prop :=
  ∀ (P : Params) (s : State) (G h D : List Byte) (a : Answer) (as : List Answer) (Bs : List (List Byte)),
    Inv P s → s.st = .intron → s.mpos = 0 → h.length = P.hdrLen → D.length = (P.hdrBlen h).toNat → Accepts P h a →
    s.answers = a :: as → (∀ j, 0 < j → s.intron[j]? ≠ s.intron[0]?) →
    (∀ u v, G ++ s.intron = u ++ s.intron ++ v → v = []) → Bs.flatten = G ++ s.intron ++ h ++ D →
      let v : Bool := decide (fletcher (covered P 0 h ++ D) = (P.hdrCksum h).toNat)
      ∃ (t : State) (evs : List Event), fpCalls P Bs s = .ok t
        ∧ t.out = s.out ++ evs.map .event
        ∧ joinBodies evs = [.resetFrame, .beginFrame h] ++ (if D = [] then [] else [.body D])
            ++ [.complete v, .typeHook (P.hdrType h).toNat v]
        ∧ t.st = .intron ∧ t.mpos = 0 ∧ t.valid = v

/-- R167, property 6: a rejected frame, cut anyhow, gives RESET_FRAME, BEGIN and INVALID after exactly its declared number of
bytes, no BODY, no checksum activity in the drain, `valid` kept. -/
def Obligations.RejectedFrameIsDrained : Prop :=
  ∀ (P : Params) (s : State) (h D : List Byte) (a : Answer) (as : List Answer) (Bs : List (List Byte)),
    Inv P s → s.st = .intron → s.mpos = 0 → h.length = P.hdrLen → D.length = (P.hdrBlen h).toNat → ¬ Accepts P h a →
    s.answers = a :: as → Bs.flatten = s.intron ++ h ++ D →
      ∃ t : State, fpCalls P Bs s = .ok t
        ∧ t.out = s.out ++ [.event .resetFrame, .event (.beginFrame h), .event .invalid]
        ∧ t.csp = csaUpdate Csa.zero (covered P 0 h)
        ∧ t.st = .intron ∧ t.mpos = 0 ∧ t.cnt = 0 ∧ t.valid = s.valid ∧ t.answers = as

/-! ## Hook events (43_handler_hooks.md) -/

/-- R189: the events of an FP.PROCESS continue the frame record the parser stands in, and leave the parser standing in the
record they reach. -/
def Obligations.EventsFollowFrameRecords : Prop :=
  ∀ (P : Params) (p : Phase) (s t : State) (B : List Byte),
    Inv P s → p.fits P s → fpProcess P B s = .next t →
      ∃ (evs : List Event) (q : Phase),
        t.out = s.out ++ evs.map .event ++ [.response ⟨.ok, []⟩] ∧ p.run P evs = some q ∧ q.fits P t

/-- R181: the event codes, and the TYPE payload: the tag in `ceil(TYPE_BITS / 8)` bytes, low byte first, then the valid byte. -/
def Obligations.EventPacketsAreEncoded : Prop :=
  ∀ P : Params,
    Event.beats P .resetFrame = [⟨0x01, true⟩]
      ∧ (∀ h, Event.beats P (.beginFrame h) = frameBeats (0x02 :: h))
      ∧ (∀ d, Event.beats P (.body d) = frameBeats (0x03 :: d))
      ∧ (∀ v : Bool, Event.beats P (.complete v) = [⟨0x04, false⟩, ⟨if v then 1 else 0, true⟩])
      ∧ (∀ (tag : Nat) (v : Bool), tag < 2 ^ P.typeBits → ∃ bs : List Byte,
          Event.beats P (.typeHook tag v) = frameBeats (0x05 :: bs ++ [if v then 1 else 0])
            ∧ bs.length = (P.typeBits + 7) / 8 ∧ leValue bs = tag)
      ∧ Event.beats P .invalid = [⟨0x06, true⟩]

/-- R76: a response packet is the status byte, 0x00 for OK and 0x01 for ILLEGAL, then the data, the last beat flagged. -/
def Obligations.ResponsePacketsAreEncoded : Prop :=
  ∀ (d ds : List Byte) (b : Byte),
    Response.beats ⟨.ok, d⟩ = frameBeats (0x00 :: d)
      ∧ Response.beats ⟨.illegal, d⟩ = frameBeats (0x01 :: d)
      ∧ frameBeats (ds ++ [b]) = ds.map (fun c => ⟨c, false⟩) ++ [⟨b, true⟩]

/-- R184: the answer beat 0x01 is ACCEPT, every other value and a failure are REJECT. -/
def Obligations.OnlyBeatOneAccepts : Prop :=
  (∀ b : Byte, Answer.accepts (.beat b) = true ↔ b = 1) ∧ Answer.accepts .failure = false

/-! ## The whole machine -/

/-- R42, R142: every step keeps the invariant of the state between commands. -/
def Obligations.EveryStepKeepsInvariant : Prop :=
  ∀ s t : State, Inv Config.params s → step s = .next t → Inv Config.params t

/-- R142: every FP.PROCESS started in a rest state ends in one, for every assignment of the parameters. -/
def Obligations.ProcessEndsAtRest : Prop :=
  ∀ (P : Params) (s t : State) (B : List Byte), Inv P s → fpProcess P B s = .next t → Inv P t

/-- The state after hardware reset meets the invariant (R43, R142). -/
def Obligations.ResetMeetsInvariant : Prop := Inv Config.params State.reset

/-- R11, R29, R30: `MPOS_BITS` and `CNT_BITS` meet the conditions R11 sets and are the least widths that do, and between commands
the registers fit them. -/
def Obligations.CountersFitTheirWidths : Prop :=
  ∀ P : Params,
    1 ≤ P.mposBits ∧ P.intronLen ≤ 2 ^ P.mposBits ∧ max P.hdrLen (2 ^ P.lenBits - 1) < 2 ^ P.cntBits
      ∧ (∀ s : State, Inv P s → s.mpos < 2 ^ P.mposBits ∧ s.cnt < 2 ^ P.cntBits)
      ∧ (∀ k, 1 ≤ k → P.intronLen ≤ 2 ^ k → P.mposBits ≤ k)
      ∧ (∀ k, max P.hdrLen (2 ^ P.lenBits - 1) < 2 ^ k → P.cntBits ≤ k)

/-- R26, R37: the CS commands touch nothing of the parser, the FP commands nothing of CSH, and only FP.SETINTRON writes the
pattern. -/
def Obligations.UnitsKeepToTheirState : Prop :=
  ∀ (i : Instr) (s t : State), exec i s = .next t →
    (i ∈ [Instr.csReset, .csGet] ∨ (∃ B, i = .csUpdate B) →
      { t with csh := s.csh, out := s.out } = s)
    ∧ (i ∈ [Instr.fpReset, .fpStatus] ∨ (∃ B, i = .fpSetIntron B ∨ i = .fpProcess B) → t.csh = s.csh)
    ∧ ((∀ B, i ≠ .fpSetIntron B) → t.intron = s.intron)

/-- R3: what CSH holds does not influence the parser. -/
def Obligations.ParserIgnoresHostAccumulator : Prop :=
  ∀ (P : Params) (B : List Byte) (s : State) (A : Csa),
    fpRun P B { s with csh := A } = (fpRun P B s).map fun r => (r.1, { r.2 with csh := A })

/-- R32, R249: FP.PROCESS writes `valid` at body completions only: afterwards it is the bit of the last COMPLETE emitted, or as
before if none was. -/
def Obligations.ValidIsLastCompletion : Prop :=
  ∀ (P : Params) (B : List Byte) (s t : State), fpProcess P B s = .next t →
    ∃ evs : List Event,
      t.out = s.out ++ evs.map .event ++ [.response ⟨.ok, []⟩] ∧ t.valid = (lastComplete evs).getD s.valid
end

