-- ==== Sys2Proof/Laws/Csa.lean ====
section
/-! SUPPORT. The accumulator's pieces as arithmetic on numbers: word assembly, one word added in the pass registers, the
reduction, what a pass consumes (R51, R103, R104). -/

namespace Sys2Proof.Machine

/-- A word's value: first byte low (R51). -/
theorem word_toNat (lo hi : Byte) : (word lo hi).toNat = lo.toNat + 256 * hi.toNat := by
  have hl := lo.isLt
  have hh := hi.isLt
  have h : word lo hi = lo.setWidth 16 + hi.setWidth 16 * 256#16 := by
    unfold word
    apply BitVec.eq_of_getLsbD_eq
    intro i hi'
    rw [← BitVec.add_eq_or_of_and_eq_zero]
    · congr 2
      apply BitVec.eq_of_toNat_eq
      simp [BitVec.toNat_shiftLeft, Nat.shiftLeft_eq, BitVec.toNat_mul]
    · apply BitVec.eq_of_getLsbD_eq
      intro j hj
      simp only [BitVec.getLsbD_and, BitVec.getLsbD_setWidth, BitVec.getLsbD_shiftLeft, BitVec.getLsbD_zero]
      by_cases h8 : j < 8
      · simp [h8]
      · simp [BitVec.getLsbD_of_ge lo j (by omega)]
  rw [h]
  simp only [BitVec.toNat_add, BitVec.toNat_mul, BitVec.toNat_setWidth, BitVec.toNat_ofNat]
  omega

/-- One word added without overflow: both registers hold the exact sums (R101(d), R104). -/
theorem passAdd_toNat {r : PassRegs} {w : Word16} (h0 : r.a0.toNat + w.toNat < 2 ^ 32)
    (h1 : r.a1.toNat + (r.a0.toNat + w.toNat) < 2 ^ 32) :
    (passAdd r w).a0.toNat = r.a0.toNat + w.toNat
      ∧ (passAdd r w).a1.toNat = r.a1.toNat + (r.a0.toNat + w.toNat) := by
  have hw := w.isLt
  have e0 : (r.a0 + w.setWidth 32).toNat = r.a0.toNat + w.toNat := by
    rw [BitVec.toNat_add, BitVec.toNat_setWidth, Nat.mod_eq_of_lt (a := w.toNat) (by omega), Nat.mod_eq_of_lt h0]
  refine ⟨e0, ?_⟩
  simp only [passAdd]
  rw [BitVec.toNat_add, e0, Nat.mod_eq_of_lt h1]

/-- The reduction is the remainder modulo 65535 (R104). -/
theorem passReduce_toNat (r : PassRegs) :
    (passReduce r).a0.toNat = r.a0.toNat % 65535 ∧ (passReduce r).a1.toNat = r.a1.toNat % 65535 := by
  simp [passReduce, Config.modulus, BitVec.toNat_umod]

/-- A pass of `k` words consumes `2 * k` bytes. -/
theorem passWords_rest {k : Nat} {B : List Byte} (r : PassRegs) (h : 2 * k ≤ B.length) : (passWords k r B).2 = B.drop (2 * k) := by
  induction k generalizing r B with
  | zero => cases B <;> rfl
  | succ k ih =>
    match B, h with
    | lo :: hi :: bs, h =>
      simp only [List.length_cons] at h
      rw [passWords, ih _ (by omega), show 2 * (k + 1) = 2 * k + 1 + 1 by omega, List.drop_succ_cons, List.drop_succ_cons]
    | [_], h => simp at h; omega
    | [], h => simp at h

/-- What the bulk passes leave is at most one byte, and it is the last one (R104). -/
theorem bulkPasses_rest {n : Nat} {B : List Byte} (r : PassRegs) (h : B.length ≤ n) :
    (bulkPasses n r B).2 = B.drop (2 * (B.length / 2)) := by
  induction n generalizing r B with
  | zero =>
    have : B = [] := List.length_eq_zero_iff.1 (by omega)
    subst this
    rfl
  | succ n ih =>
    rw [bulkPasses]
    split
    · rw [show B.length / 2 = 0 by omega]
      rfl
    · rename_i hlen
      have hk : 2 * min Config.bulkWords (B.length / 2) ≤ B.length := by omega
      have h1 : 1 ≤ min Config.bulkWords (B.length / 2) := by
        simp only [Config.bulkWords]
        omega
      simp only [passWords_rest r hk]
      rw [ih _ (by rw [List.length_drop]; omega), List.drop_drop, List.length_drop]
      congr 1
      omega

@[simp] theorem csaReset_eq (A : Csa) : csaReset A = Csa.zero := rfl

/-- An empty update changes nothing (R105). -/
@[simp] theorem csaUpdate_empty (A : Csa) : csaUpdate A [] = A := rfl

/-- With no byte pending, CSA_GET returns the sums as they stand (R110). -/
theorem csaGet_of_not_pending {A : Csa} (h : A.pendV = false) :
    csaGet A = BitVec.ofNat 32 A.c0.toNat ||| (BitVec.ofNat 32 A.c1.toNat <<< 16) := by
  simp [csaGet, h]

end Sys2Proof.Machine
end

