-- ==== Sys2Proof/Laws/Memory.lean ====
section
/-! SUPPORT. The scratch buffer: reading after writing, and every operation keeps the canonical form and the bound on the
addresses (R33, R50). -/

namespace Sys2Proof.Machine

@[simp] theorem Memory.read_nil (a : Nat) : Memory.read [] a = 0 := rfl

@[simp] theorem Memory.clear_eq : Memory.clear = [] := rfl

theorem Memory.read_cons (k : Nat) (v : Byte) (m : Memory) (a : Nat) :
    Memory.read ((k, v) :: m) a = if k = a then v else Memory.read m a := rfl

/-- An address below every cell reads as unlisted. -/
theorem Memory.read_of_lt {m : Memory} {a : Nat} (h : ∀ c ∈ m, a < c.1) : m.read a = 0 := by
  induction m with
  | nil => rfl
  | cons c m ih =>
    obtain ⟨k, v⟩ := c
    have hk : a < k := h (k, v) (by simp)
    rw [Memory.read_cons, if_neg (by omega)]
    exact ih fun c hc => h c (by simp [hc])

/-- An address at or above a bound on the cells reads as unlisted. -/
theorem Memory.read_of_below {m : Memory} {n a : Nat} (h : m.below n) (ha : n ≤ a) : m.read a = 0 := by
  induction m with
  | nil => rfl
  | cons c m ih =>
    obtain ⟨k, v⟩ := c
    have hk : k < n := h (k, v) (by simp)
    rw [Memory.read_cons, if_neg (by omega)]
    exact ih fun c hc => h c (by simp [hc])

theorem Memory.wf_cons {k : Nat} {v : Byte} {m : Memory} :
    Memory.wf ((k, v) :: m) ↔ (∀ c ∈ m, k < c.1) ∧ v ≠ 0 ∧ Memory.wf m := by
  simp only [Memory.wf, List.pairwise_cons, List.forall_mem_cons, Memory.unlisted]
  tauto

theorem Memory.wf_nil : Memory.wf [] := by simp [Memory.wf]

/-- The smart cell constructor keeps the canonical form. -/
theorem Memory.cons_wf {a : Nat} {v : Byte} {m : Memory} (hm : m.wf) (h : ∀ c ∈ m, a < c.1) : (Memory.cons a v m).wf := by
  unfold Memory.cons
  split
  · exact hm
  · exact Memory.wf_cons.2 ⟨h, ‹_›, hm⟩

theorem Memory.read_smartCons {a b : Nat} {v : Byte} {m : Memory} (h : ∀ c ∈ m, a < c.1) :
    (Memory.cons a v m).read b = if a = b then v else m.read b := by
  unfold Memory.cons
  split
  · rename_i hv
    split
    · subst hv; rename_i hab; subst hab; exact Memory.read_of_lt h
    · rfl
  · exact Memory.read_cons ..

/-- Every address of a written buffer is the written one or an old one. -/
theorem Memory.mem_write {m : Memory} {a : Nat} {v : Byte} {c : Host.Cell} (h : c ∈ m.write a v) : c = (a, v) ∨ c ∈ m := by
  induction m with
  | nil =>
    simp only [Memory.write, Memory.cons] at h
    split at h <;> simp_all
  | cons d m ih =>
    obtain ⟨k, x⟩ := d
    simp only [Memory.write, Memory.cons] at h
    split at h
    · split at h <;> simp_all
    · split at h
      · split at h
        · exact .inr (List.mem_cons_of_mem _ h)
        · rcases List.mem_cons.1 h with h | h
          · exact .inl h
          · exact .inr (List.mem_cons_of_mem _ h)
      · rcases List.mem_cons.1 h with h | h
        · exact .inr (h ▸ List.mem_cons_self)
        · rcases ih h with h | h
          · exact .inl h
          · exact .inr (List.mem_cons_of_mem _ h)

/-- A write keeps the canonical form. -/
theorem Memory.write_wf {m : Memory} (a : Nat) (v : Byte) (hm : m.wf) : (m.write a v).wf := by
  induction m with
  | nil => exact Memory.cons_wf hm (by simp)
  | cons d m ih =>
    obtain ⟨k, x⟩ := d
    obtain ⟨hlt, hx, hm'⟩ := Memory.wf_cons.1 hm
    simp only [Memory.write]
    split
    · rename_i hak
      refine Memory.cons_wf hm fun c hc => ?_
      rcases List.mem_cons.1 hc with rfl | hc
      · exact hak
      · exact lt_trans hak (hlt c hc)
    · split
      · rename_i hak
        exact Memory.cons_wf hm' fun c hc => hak ▸ hlt c hc
      · refine Memory.wf_cons.2 ⟨fun c hc => ?_, hx, ih hm'⟩
        rcases Memory.mem_write hc with rfl | hc
        · show k < a
          omega
        · exact hlt c hc

/-- A write below a bound keeps every cell below it. -/
theorem Memory.write_below {m : Memory} {n a : Nat} (v : Byte) (hm : m.below n) (ha : a < n) : (m.write a v).below n := by
  intro c hc
  rcases Memory.mem_write hc with rfl | hc
  · exact ha
  · exact hm c hc

/-- A read after a write gives the value written there, and every other byte as before. -/
theorem Memory.read_write {m : Memory} (hm : m.wf) (a b : Nat) (v : Byte) :
    (m.write a v).read b = if a = b then v else m.read b := by
  induction m with
  | nil => exact Memory.read_smartCons (by simp)
  | cons d m ih =>
    obtain ⟨k, x⟩ := d
    obtain ⟨hlt, hx, hm'⟩ := Memory.wf_cons.1 hm
    simp only [Memory.write]
    split
    · rename_i hak
      refine Memory.read_smartCons fun c hc => ?_
      rcases List.mem_cons.1 hc with rfl | hc
      · exact hak
      · exact lt_trans hak (hlt c hc)
    · split
      · rename_i hak
        subst hak
        rw [Memory.read_smartCons hlt, Memory.read_cons]
        split <;> rfl
      · rw [Memory.read_cons, Memory.read_cons, ih hm']
        split
        · rename_i hkb
          rw [if_neg (by omega)]
        · rfl

/-- Canonical buffers with equal bytes are equal data. -/
theorem Memory.ext_read {m m' : Memory} (hm : m.wf) (hm' : m'.wf) (h : ∀ a, m.read a = m'.read a) : m = m' := by
  induction m generalizing m' with
  | nil =>
    cases m' with
    | nil => rfl
    | cons d m' =>
      obtain ⟨k, x⟩ := d
      have := h k
      simp only [Memory.read_nil, Memory.read_cons, if_true] at this
      exact absurd this.symm (Memory.wf_cons.1 hm').2.1
  | cons c m ih =>
    obtain ⟨j, y⟩ := c
    obtain ⟨hj, hy, hm⟩ := Memory.wf_cons.1 hm
    cases m' with
    | nil =>
      have := h j
      simp only [Memory.read_nil, Memory.read_cons, if_true] at this
      exact absurd this hy
    | cons d m' =>
      obtain ⟨k, x⟩ := d
      obtain ⟨hk, hx, hm''⟩ := Memory.wf_cons.1 hm'
      have hjk : j = k := by
        rcases lt_trichotomy j k with hlt | heq | hgt
        · have := h j
          rw [Memory.read_cons, if_pos rfl, Memory.read_cons, if_neg (by omega),
            Memory.read_of_lt fun c hc => lt_trans hlt (hk c hc)] at this
          exact absurd this hy
        · exact heq
        · have := h k
          rw [Memory.read_cons, if_neg (by omega), Memory.read_of_lt (fun c hc => lt_trans hgt (hj c hc)),
            Memory.read_cons, if_pos rfl] at this
          exact absurd this.symm hx
      subst hjk
      have hxy : y = x := by simpa [Memory.read_cons] using h j
      subst hxy
      congr 1
      refine ih hm hm'' fun a => ?_
      have := h a
      rw [Memory.read_cons, Memory.read_cons] at this
      by_cases hja : j = a
      · subst hja
        rw [Memory.read_of_lt hj, Memory.read_of_lt hk]
      · simpa [hja] using this

/-- The rules' loop of `MemWrite(a, 1, 0x00)` over all addresses leaves the cleared buffer (R131, R134, R152). -/
theorem Memory.zeroLoop_eq_clear {m : Memory} {n : Nat} (hm : m.wf) (hb : m.below n) :
    (List.range n).foldl (fun m a => m.write a 0) m = Memory.clear := by
  have key : ∀ k ≤ n, ((List.range k).foldl (fun m a => m.write a 0) m).wf
      ∧ ∀ a, ((List.range k).foldl (fun m a => m.write a 0) m).read a = if a < k then 0 else m.read a := by
    intro k hk
    induction k with
    | zero => simpa using hm
    | succ k ih =>
      obtain ⟨hw, hr⟩ := ih (by omega)
      rw [List.range_succ, List.foldl_append, List.foldl_cons, List.foldl_nil]
      refine ⟨Memory.write_wf _ _ hw, fun a => ?_⟩
      rw [Memory.read_write hw, hr]
      by_cases h1 : k = a <;> by_cases h2 : a < k <;> simp [h1, h2] <;> omega
  obtain ⟨hw, hr⟩ := key n le_rfl
  refine Memory.ext_read hw Memory.wf_nil fun a => ?_
  rw [hr]
  split
  · rfl
  · exact Memory.read_of_below hb (by omega)

@[simp] theorem Memory.bytes_length (m : Memory) (n : Nat) : (m.bytes n).length = n := by simp [Memory.bytes]

theorem Memory.bytes_getElem? (m : Memory) (n a : Nat) : (m.bytes n)[a]? = if a < n then some (m.read a) else none := by
  by_cases h : a < n <;> simp [Memory.bytes, h]

end Sys2Proof.Machine
end

