-- ==== Sys2Proof/Laws/Ops.lean ====
section
/-! SUPPORT. What each shared operation over scratch and the ports can do, said once: scratch access, the BEGIN answer, the
opcode lookup, taking a packet, a step. -/

namespace Sys2Proof.Machine

/-- `MemRead` gives the bytes inside the buffer and stops outside it (R13). -/
theorem memRead_cases (P : Params) (a n : Nat) (s : State) :
    (a + n ≤ P.hdrLen ∧ memRead P a n s = .ok ((List.range n).map fun j => s.scratch.read (a + j)))
      ∨ (P.hdrLen < a + n ∧ memRead P a n s = .error .scratchRange) := by
  by_cases h : a + n ≤ P.hdrLen
  · exact .inl ⟨h, if_pos h⟩
  · exact .inr ⟨by omega, if_neg h⟩

/-- `MemWrite` of one byte changes scratch alone inside the buffer and stops outside it (R13). -/
theorem memWrite_cases (P : Params) (a : Nat) (v : Byte) (s : State) :
    (a < P.hdrLen ∧ memWrite P a v s = .ok { s with scratch := s.scratch.write a v })
      ∨ (P.hdrLen ≤ a ∧ memWrite P a v s = .error .scratchRange) := by
  by_cases h : a < P.hdrLen
  · exact .inl ⟨h, if_pos h⟩
  · exact .inr ⟨by omega, if_neg h⟩

/-- Asking the FH: BEGIN goes out and one answer is taken, or no answer will come (R157, R193). -/
theorem askBegin_cases (h : List Byte) (s : State) :
    (s.answers = [] ∧ askBegin h s = .error .beginUnanswered)
      ∨ ∃ a as, s.answers = a :: as
          ∧ askBegin h s = .ok (a, { s with answers := as, out := s.out ++ [.event (.beginFrame h)] }) := by
  unfold askBegin
  cases s.answers with
  | nil => exact .inl ⟨rfl, rfl⟩
  | cons a as => exact .inr ⟨a, as, rfl, rfl⟩

/-- The mask 0xFF keeps the whole byte (R72). -/
theorem and_mask (op : Byte) : op &&& 255#8 = op := BitVec.and_allOnes

/-- The opcode lookup finds a row exactly at its opcode byte (R72). -/
theorem Opcode.ofByte_eq_some {op : Byte} {o : Opcode} : Opcode.ofByte op = some o ↔ op = o.byte := by
  constructor
  · intro h
    have h' := List.find?_some h
    cases o <;> simpa [Opcode.mask, Opcode.byte, and_mask] using h'
  · rintro rfl
    cases o <;> rfl

/-- The opcode lookup fails exactly at the reserved values (R75). -/
theorem Opcode.ofByte_eq_none {op : Byte} :
    Opcode.ofByte op = none ↔ op ∉ [0x00, 0x01, 0x02, 0x10, 0x11, 0x12, (0x13 : Byte)] := by
  simp [Opcode.ofByte, Opcode.all, Opcode.mask, Opcode.byte, and_mask]

/-- Decoding a packet of a row whose payload length its format admits (R82). -/
theorem decode_admitted {P : Params} {o : Opcode} {B : List Byte} (h : o.format.admits P B.length = true) :
    decode P ⟨o.byte, B⟩ = .ok (o.command B) := by
  simp only [decode, Opcode.ofByte_eq_some.2 rfl, h, if_true]

/-- Decoding a packet of a row whose payload length its format does not admit (R82). -/
theorem decode_not_admitted {P : Params} {o : Opcode} {B : List Byte} (h : o.format.admits P B.length = false) :
    ∃ r, decode P ⟨o.byte, B⟩ = .error r := by
  simp only [decode, Opcode.ofByte_eq_some.2 rfl, h]
  cases o.format <;> exact ⟨_, rfl⟩

/-- What decoding can find: a reserved opcode, or a row with a payload length its format admits or not (R74, R82). -/
theorem decode_cases (P : Params) (pkt : Packet) :
    (Opcode.ofByte pkt.op = none ∧ decode P pkt = .error (.reservedOpcode pkt.op))
      ∨ (∃ o : Opcode, pkt.op = o.byte ∧ o.format.admits P pkt.payload.length = true ∧ decode P pkt = .ok (o.command pkt.payload))
      ∨ ∃ (o : Opcode) (r : Reject), pkt.op = o.byte ∧ o.format.admits P pkt.payload.length = false ∧ decode P pkt = .error r := by
  obtain ⟨op, B⟩ := pkt
  cases ho : Opcode.ofByte op with
  | none => exact .inl ⟨rfl, by simp only [decode, ho]⟩
  | some o =>
    obtain rfl := Opcode.ofByte_eq_some.1 ho
    cases ha : o.format.admits P B.length with
    | true => exact .inr (.inl ⟨o, rfl, ha, decode_admitted ha⟩)
    | false =>
      obtain ⟨r, hr⟩ := decode_not_admitted ha
      exact .inr (.inr ⟨o, r, rfl, ha, hr⟩)

/-- What taking a packet's bytes finds: beats without `last`, then one with it (R70). -/
theorem takeBytes_some {cmd rest : List Beat} {ds : List Byte} (h : takeBytes cmd = some (ds, rest)) :
    ∃ (bs : List Beat) (b : Beat), cmd = bs ++ b :: rest ∧ (∀ c ∈ bs, c.last = false) ∧ b.last = true
      ∧ ds = bs.map Beat.data ++ [b.data] := by
  induction cmd generalizing ds with
  | nil => cases h
  | cons b cmd ih =>
    rw [takeBytes] at h
    by_cases hb : b.last = true
    · rw [if_pos hb] at h
      cases h
      exact ⟨[], b, rfl, by simp, hb, rfl⟩
    · rw [if_neg hb] at h
      cases ht : takeBytes cmd with
      | none => simp [ht] at h
      | some p =>
        obtain ⟨ds', rest'⟩ := p
        simp only [ht, Option.some.injEq, Prod.mk.injEq] at h
        obtain ⟨rfl, rfl⟩ := h
        obtain ⟨bs, c, rfl, h1, h2, rfl⟩ := ih ht
        exact ⟨b :: bs, c, rfl, by simpa [hb] using h1, h2, rfl⟩

/-- The four things a step can do: reset, wait, run a command, answer an illegal packet. -/
theorem step_cases (s : State) :
    (s.rst = true ∧ step s = .next (hardReset Config.params s))
      ∨ (s.rst = false ∧ fetchPacket s.cmd = none ∧ step s = .next s)
      ∨ (∃ pkt rest i, s.rst = false ∧ fetchPacket s.cmd = some (pkt, rest) ∧ decode Config.params pkt = .ok i
          ∧ step s = exec i { s with cmd := rest })
      ∨ ∃ pkt rest r, s.rst = false ∧ fetchPacket s.cmd = some (pkt, rest) ∧ decode Config.params pkt = .error r
          ∧ step s = .next (answerIllegal { s with cmd := rest }) := by
  unfold step
  cases hr : s.rst with
  | true => exact .inl ⟨rfl, rfl⟩
  | false =>
    cases hf : fetchPacket s.cmd with
    | none => exact .inr (.inl ⟨rfl, rfl, rfl⟩)
    | some p =>
      obtain ⟨pkt, rest⟩ := p
      cases hd : decode Config.params pkt with
      | ok i => exact .inr (.inr (.inl ⟨pkt, rest, i, rfl, rfl, hd, by simp [hd]⟩))
      | error r => exact .inr (.inr (.inr ⟨pkt, rest, r, rfl, rfl, hd, by simp [hd]⟩))

end Sys2Proof.Machine
end

