-- ==== Sys2Proof/Laws/State.lean ====
section
/-! SUPPORT. What each shared update does to each field of State, so that no proof unfolds a record update. -/

namespace Sys2Proof.Machine

/-! `respond` (R78): one response goes out, nothing else changes. -/

@[simp] theorem respond_csh (c : Status) (d : List Byte) (s : State) : (respond c d s).csh = s.csh := rfl
@[simp] theorem respond_csp (c : Status) (d : List Byte) (s : State) : (respond c d s).csp = s.csp := rfl
@[simp] theorem respond_st (c : Status) (d : List Byte) (s : State) : (respond c d s).st = s.st := rfl
@[simp] theorem respond_mpos (c : Status) (d : List Byte) (s : State) : (respond c d s).mpos = s.mpos := rfl
@[simp] theorem respond_cnt (c : Status) (d : List Byte) (s : State) : (respond c d s).cnt = s.cnt := rfl
@[simp] theorem respond_intron (c : Status) (d : List Byte) (s : State) : (respond c d s).intron = s.intron := rfl
@[simp] theorem respond_valid (c : Status) (d : List Byte) (s : State) : (respond c d s).valid = s.valid := rfl
@[simp] theorem respond_scratch (c : Status) (d : List Byte) (s : State) : (respond c d s).scratch = s.scratch := rfl
@[simp] theorem respond_rst (c : Status) (d : List Byte) (s : State) : (respond c d s).rst = s.rst := rfl
@[simp] theorem respond_cmd (c : Status) (d : List Byte) (s : State) : (respond c d s).cmd = s.cmd := rfl
@[simp] theorem respond_answers (c : Status) (d : List Byte) (s : State) : (respond c d s).answers = s.answers := rfl
@[simp] theorem respond_out (c : Status) (d : List Byte) (s : State) : (respond c d s).out = s.out ++ [.response ⟨c, d⟩] := rfl

/-! `emit` (R180): one event goes out, nothing else changes (R208). -/

@[simp] theorem emit_csh (e : Event) (s : State) : (emit e s).csh = s.csh := rfl
@[simp] theorem emit_csp (e : Event) (s : State) : (emit e s).csp = s.csp := rfl
@[simp] theorem emit_st (e : Event) (s : State) : (emit e s).st = s.st := rfl
@[simp] theorem emit_mpos (e : Event) (s : State) : (emit e s).mpos = s.mpos := rfl
@[simp] theorem emit_cnt (e : Event) (s : State) : (emit e s).cnt = s.cnt := rfl
@[simp] theorem emit_intron (e : Event) (s : State) : (emit e s).intron = s.intron := rfl
@[simp] theorem emit_valid (e : Event) (s : State) : (emit e s).valid = s.valid := rfl
@[simp] theorem emit_scratch (e : Event) (s : State) : (emit e s).scratch = s.scratch := rfl
@[simp] theorem emit_rst (e : Event) (s : State) : (emit e s).rst = s.rst := rfl
@[simp] theorem emit_cmd (e : Event) (s : State) : (emit e s).cmd = s.cmd := rfl
@[simp] theorem emit_answers (e : Event) (s : State) : (emit e s).answers = s.answers := rfl
@[simp] theorem emit_out (e : Event) (s : State) : (emit e s).out = s.out ++ [.event e] := rfl

/-! `answerOk` and `answerIllegal`. -/

@[simp] theorem answerOk_csh (s : State) : (answerOk s).csh = s.csh := rfl
@[simp] theorem answerOk_csp (s : State) : (answerOk s).csp = s.csp := rfl
@[simp] theorem answerOk_st (s : State) : (answerOk s).st = s.st := rfl
@[simp] theorem answerOk_mpos (s : State) : (answerOk s).mpos = s.mpos := rfl
@[simp] theorem answerOk_cnt (s : State) : (answerOk s).cnt = s.cnt := rfl
@[simp] theorem answerOk_intron (s : State) : (answerOk s).intron = s.intron := rfl
@[simp] theorem answerOk_valid (s : State) : (answerOk s).valid = s.valid := rfl
@[simp] theorem answerOk_scratch (s : State) : (answerOk s).scratch = s.scratch := rfl
@[simp] theorem answerOk_rst (s : State) : (answerOk s).rst = s.rst := rfl
@[simp] theorem answerOk_cmd (s : State) : (answerOk s).cmd = s.cmd := rfl
@[simp] theorem answerOk_answers (s : State) : (answerOk s).answers = s.answers := rfl
@[simp] theorem answerOk_out (s : State) : (answerOk s).out = s.out ++ [.response ⟨.ok, []⟩] := rfl

@[simp] theorem answerIllegal_csh (s : State) : (answerIllegal s).csh = s.csh := rfl
@[simp] theorem answerIllegal_csp (s : State) : (answerIllegal s).csp = s.csp := rfl
@[simp] theorem answerIllegal_st (s : State) : (answerIllegal s).st = s.st := rfl
@[simp] theorem answerIllegal_mpos (s : State) : (answerIllegal s).mpos = s.mpos := rfl
@[simp] theorem answerIllegal_cnt (s : State) : (answerIllegal s).cnt = s.cnt := rfl
@[simp] theorem answerIllegal_intron (s : State) : (answerIllegal s).intron = s.intron := rfl
@[simp] theorem answerIllegal_valid (s : State) : (answerIllegal s).valid = s.valid := rfl
@[simp] theorem answerIllegal_scratch (s : State) : (answerIllegal s).scratch = s.scratch := rfl
@[simp] theorem answerIllegal_rst (s : State) : (answerIllegal s).rst = s.rst := rfl
@[simp] theorem answerIllegal_cmd (s : State) : (answerIllegal s).cmd = s.cmd := rfl
@[simp] theorem answerIllegal_answers (s : State) : (answerIllegal s).answers = s.answers := rfl
@[simp] theorem answerIllegal_out (s : State) : (answerIllegal s).out = s.out ++ [.response ⟨.illegal, []⟩] := rfl

/-! `parserInit` (R131): the FP registers but `intron`. -/

@[simp] theorem parserInit_csh (s : State) : (parserInit s).csh = s.csh := rfl
@[simp] theorem parserInit_csp (s : State) : (parserInit s).csp = Csa.zero := rfl
@[simp] theorem parserInit_st (s : State) : (parserInit s).st = .intron := rfl
@[simp] theorem parserInit_mpos (s : State) : (parserInit s).mpos = 0 := rfl
@[simp] theorem parserInit_cnt (s : State) : (parserInit s).cnt = 0 := rfl
@[simp] theorem parserInit_intron (s : State) : (parserInit s).intron = s.intron := rfl
@[simp] theorem parserInit_valid (s : State) : (parserInit s).valid = false := rfl
@[simp] theorem parserInit_scratch (s : State) : (parserInit s).scratch = [] := rfl
@[simp] theorem parserInit_rst (s : State) : (parserInit s).rst = s.rst := rfl
@[simp] theorem parserInit_cmd (s : State) : (parserInit s).cmd = s.cmd := rfl
@[simp] theorem parserInit_answers (s : State) : (parserInit s).answers = s.answers := rfl
@[simp] theorem parserInit_out (s : State) : (parserInit s).out = s.out := rfl

/-! `hardReset` (R43): every register. -/

@[simp] theorem hardReset_csh (P : Params) (s : State) : (hardReset P s).csh = Csa.zero := rfl
@[simp] theorem hardReset_csp (P : Params) (s : State) : (hardReset P s).csp = Csa.zero := rfl
@[simp] theorem hardReset_st (P : Params) (s : State) : (hardReset P s).st = .intron := rfl
@[simp] theorem hardReset_mpos (P : Params) (s : State) : (hardReset P s).mpos = 0 := rfl
@[simp] theorem hardReset_cnt (P : Params) (s : State) : (hardReset P s).cnt = 0 := rfl
@[simp] theorem hardReset_intron (P : Params) (s : State) : (hardReset P s).intron = P.intronReset.toList := rfl
@[simp] theorem hardReset_valid (P : Params) (s : State) : (hardReset P s).valid = false := rfl
@[simp] theorem hardReset_scratch (P : Params) (s : State) : (hardReset P s).scratch = [] := rfl
@[simp] theorem hardReset_rst (P : Params) (s : State) : (hardReset P s).rst = false := rfl
@[simp] theorem hardReset_cmd (P : Params) (s : State) : (hardReset P s).cmd = s.cmd := rfl
@[simp] theorem hardReset_answers (P : Params) (s : State) : (hardReset P s).answers = s.answers := rfl
@[simp] theorem hardReset_out (P : Params) (s : State) : (hardReset P s).out = s.out := rfl

/-! `startFrame` (R154): the full-match actions. -/

@[simp] theorem startFrame_csh (s : State) : (startFrame s).csh = s.csh := rfl
@[simp] theorem startFrame_csp (s : State) : (startFrame s).csp = Csa.zero := rfl
@[simp] theorem startFrame_st (s : State) : (startFrame s).st = .header := rfl
@[simp] theorem startFrame_mpos (s : State) : (startFrame s).mpos = 0 := rfl
@[simp] theorem startFrame_cnt (s : State) : (startFrame s).cnt = 0 := rfl
@[simp] theorem startFrame_intron (s : State) : (startFrame s).intron = s.intron := rfl
@[simp] theorem startFrame_valid (s : State) : (startFrame s).valid = s.valid := rfl
@[simp] theorem startFrame_scratch (s : State) : (startFrame s).scratch = [] := rfl
@[simp] theorem startFrame_rst (s : State) : (startFrame s).rst = s.rst := rfl
@[simp] theorem startFrame_cmd (s : State) : (startFrame s).cmd = s.cmd := rfl
@[simp] theorem startFrame_answers (s : State) : (startFrame s).answers = s.answers := rfl
@[simp] theorem startFrame_out (s : State) : (startFrame s).out = s.out ++ [.event .resetFrame] := rfl

/-! `completeDrain` (R165). -/

@[simp] theorem completeDrain_csh (s : State) : (completeDrain s).csh = s.csh := rfl
@[simp] theorem completeDrain_csp (s : State) : (completeDrain s).csp = s.csp := rfl
@[simp] theorem completeDrain_st (s : State) : (completeDrain s).st = .intron := rfl
@[simp] theorem completeDrain_mpos (s : State) : (completeDrain s).mpos = s.mpos := rfl
@[simp] theorem completeDrain_cnt (s : State) : (completeDrain s).cnt = 0 := rfl
@[simp] theorem completeDrain_intron (s : State) : (completeDrain s).intron = s.intron := rfl
@[simp] theorem completeDrain_valid (s : State) : (completeDrain s).valid = s.valid := rfl
@[simp] theorem completeDrain_scratch (s : State) : (completeDrain s).scratch = s.scratch := rfl
@[simp] theorem completeDrain_rst (s : State) : (completeDrain s).rst = s.rst := rfl
@[simp] theorem completeDrain_cmd (s : State) : (completeDrain s).cmd = s.cmd := rfl
@[simp] theorem completeDrain_answers (s : State) : (completeDrain s).answers = s.answers := rfl
@[simp] theorem completeDrain_out (s : State) : (completeDrain s).out = s.out ++ [.event .invalid] := rfl

/-! `State.withFetchWord`: the command port and the reset input. -/

@[simp] theorem withFetchWord_csh (s : State) (nbits w : Nat) : (s.withFetchWord nbits w).csh = s.csh := rfl
@[simp] theorem withFetchWord_csp (s : State) (nbits w : Nat) : (s.withFetchWord nbits w).csp = s.csp := rfl
@[simp] theorem withFetchWord_st (s : State) (nbits w : Nat) : (s.withFetchWord nbits w).st = s.st := rfl
@[simp] theorem withFetchWord_mpos (s : State) (nbits w : Nat) : (s.withFetchWord nbits w).mpos = s.mpos := rfl
@[simp] theorem withFetchWord_cnt (s : State) (nbits w : Nat) : (s.withFetchWord nbits w).cnt = s.cnt := rfl
@[simp] theorem withFetchWord_intron (s : State) (nbits w : Nat) : (s.withFetchWord nbits w).intron = s.intron := rfl
@[simp] theorem withFetchWord_valid (s : State) (nbits w : Nat) : (s.withFetchWord nbits w).valid = s.valid := rfl
@[simp] theorem withFetchWord_scratch (s : State) (nbits w : Nat) : (s.withFetchWord nbits w).scratch = s.scratch := rfl
@[simp] theorem withFetchWord_rst (s : State) (nbits w : Nat) : (s.withFetchWord nbits w).rst = false := rfl
@[simp] theorem withFetchWord_cmd (s : State) (nbits w : Nat) : (s.withFetchWord nbits w).cmd = packetBeats (tablePacket nbits w) ++ s.cmd := rfl
@[simp] theorem withFetchWord_answers (s : State) (nbits w : Nat) : (s.withFetchWord nbits w).answers = s.answers := rfl
@[simp] theorem withFetchWord_out (s : State) (nbits w : Nat) : (s.withFetchWord nbits w).out = s.out := rfl

/-! `completeBody` (R161): `valid`, `cnt`, `st` and two events. -/

@[simp] theorem completeBody_csh (P : Params) (s : State) : (completeBody P s).csh = s.csh := rfl
@[simp] theorem completeBody_csp (P : Params) (s : State) : (completeBody P s).csp = s.csp := rfl
@[simp] theorem completeBody_st (P : Params) (s : State) : (completeBody P s).st = .intron := rfl
@[simp] theorem completeBody_mpos (P : Params) (s : State) : (completeBody P s).mpos = s.mpos := rfl
@[simp] theorem completeBody_cnt (P : Params) (s : State) : (completeBody P s).cnt = 0 := rfl
@[simp] theorem completeBody_intron (P : Params) (s : State) : (completeBody P s).intron = s.intron := rfl
@[simp] theorem completeBody_valid (P : Params) (s : State) : (completeBody P s).valid = (csaGet s.csp == s.cksumField P) := rfl
@[simp] theorem completeBody_scratch (P : Params) (s : State) : (completeBody P s).scratch = s.scratch := rfl
@[simp] theorem completeBody_rst (P : Params) (s : State) : (completeBody P s).rst = s.rst := rfl
@[simp] theorem completeBody_cmd (P : Params) (s : State) : (completeBody P s).cmd = s.cmd := rfl
@[simp] theorem completeBody_answers (P : Params) (s : State) : (completeBody P s).answers = s.answers := rfl
@[simp] theorem completeBody_out (P : Params) (s : State) :
    (completeBody P s).out = s.out
      ++ [.event (.complete (csaGet s.csp == s.cksumField P)),
        .event (.typeHook (s.tag P).toNat (csaGet s.csp == s.cksumField P))] := by
  simp [completeBody, State.tag, State.header]

/-! The header views (R34) depend on scratch alone. -/

@[simp] theorem header_respond (P : Params) (c : Status) (d : List Byte) (s : State) : (respond c d s).header P = s.header P := rfl
@[simp] theorem header_emit (P : Params) (e : Event) (s : State) : (emit e s).header P = s.header P := rfl
@[simp] theorem header_completeBody (P : Params) (s : State) : (completeBody P s).header P = s.header P := rfl
@[simp] theorem header_completeDrain (P : Params) (s : State) : (completeDrain s).header P = s.header P := rfl

/-- Two states with one scratch buffer have one header. -/
theorem header_congr (P : Params) {s t : State} (h : s.scratch = t.scratch) : s.header P = t.header P := by
  simp [State.header, h]

/-- The declared length is a function of the header. -/
theorem bodyLen_congr (P : Params) {s t : State} (h : s.scratch = t.scratch) : s.bodyLen P = t.bodyLen P := by
  simp [State.bodyLen, header_congr P h]

end Sys2Proof.Machine
end

