-- ==== Sys2Proof/Laws/Parser.lean ====
section
/-! SUPPORT. What each step function of FP.PROCESS can do, said once: its result in full, and the frame that every round and
every run keeps (R137, R151 to R166). -/

namespace Sys2Proof.Machine

/-! Runs of events. -/

theorem beginCount_append (es es' : List Event) : beginCount (es ++ es') = beginCount es + beginCount es' := by
  induction es with
  | nil => simp [beginCount]
  | cons e es ih => cases e <;> simp [beginCount, ih]; omega

/-- The frame of the parser: CSH, `intron` and the ports' inputs are kept, what went out stays, one answer is taken per BEGIN
(R36, R37, R183). -/
def ParserFrame (s t : State) : Prop :=
  ∃ evs : List Event, t.out = s.out ++ evs.map .event ∧ t.answers = s.answers.drop (beginCount evs)
    ∧ t.csh = s.csh ∧ t.intron = s.intron ∧ t.rst = s.rst ∧ t.cmd = s.cmd

theorem ParserFrame.refl (s : State) : ParserFrame s s := ⟨[], by simp [beginCount]⟩

theorem ParserFrame.trans {s t u : State} (h : ParserFrame s t) (h' : ParserFrame t u) : ParserFrame s u := by
  obtain ⟨es, h1, h2, h3, h4, h5, h6⟩ := h
  obtain ⟨es', h1', h2', h3', h4', h5', h6'⟩ := h'
  exact ⟨es ++ es', by simp [h1', h1], by rw [h2', h2, List.drop_drop, beginCount_append],
    h3'.trans h3, h4'.trans h4, h5'.trans h5, h6'.trans h6⟩

/-! State Intron. -/

/-- The full-match actions do not depend on the match position. -/
@[simp] theorem startFrame_setMpos (s : State) (k : Nat) : startFrame { s with mpos := k } = startFrame s := rfl

/-- What the search can do: use up the payload and change `mpos` alone, or start a frame and leave a proper suffix. -/
theorem stepIntron_cases (P : Params) (B : List Byte) (s : State) :
    (∃ k, stepIntron P B s = .needMore [] { s with mpos := k })
      ∨ ∃ u b rest, B = u ++ b :: rest ∧ stepIntron P B s = .advanced rest (startFrame s) := by
  induction B generalizing s with
  | nil => exact .inl ⟨s.mpos, rfl⟩
  | cons b bs ih =>
    have step : ∀ k, stepIntron P (b :: bs) s = stepIntron P bs { s with mpos := k } →
        (∃ k, stepIntron P (b :: bs) s = .needMore [] { s with mpos := k })
          ∨ ∃ u c rest, b :: bs = u ++ c :: rest ∧ stepIntron P (b :: bs) s = .advanced rest (startFrame s) := by
      intro k hk
      rw [hk]
      rcases ih { s with mpos := k } with ⟨j, hj⟩ | ⟨u, c, rest, hu, hr⟩
      · exact .inl ⟨j, hj⟩
      · exact .inr ⟨b :: u, c, rest, by simp [hu], hr⟩
    by_cases h1 : s.intron[comparePos s b]? = some b
    · by_cases h2 : comparePos s b + 1 = P.intronLen
      · exact .inr ⟨[], b, bs, rfl, by simp [stepIntron, h1, h2]⟩
      · exact step (comparePos s b + 1) (by simp [stepIntron, h1, h2])
    · exact step 0 (by simp [stepIntron, h1])

/-! State Header. -/

/-- The bytes of a list written at consecutive addresses. -/
def Memory.writeAll : Memory → Nat → List Byte → Memory
  | m, _, [] => m
  | m, a, b :: bs => Memory.writeAll (m.write a b) (a + 1) bs

/-- The covered bytes of a header part fed to an accumulator one at a time. -/
def feedCovered (P : Params) (a : Nat) (bs : List Byte) (A : Csa) : Csa :=
  (covered P a bs).foldl (fun A b => csaUpdate A [b]) A

/-- Storing header bytes inside the buffer always works: scratch and CSP change, nothing else (R156). -/
theorem storeHeader_spec (P : Params) (bs : List Byte) (a : Nat) (s : State) (h : a + bs.length ≤ P.hdrLen) :
    storeHeader P bs a s
      = .ok { s with scratch := s.scratch.writeAll a bs, csp := feedCovered P a bs s.csp } := by
  induction bs generalizing a s with
  | nil => rfl
  | cons b bs ih =>
    simp only [List.length_cons] at h
    have ha : a < P.scratchCap := by simp only [Params.scratchCap]; omega
    simp only [storeHeader, memWrite, if_pos ha]
    rw [ih _ _ (by omega)]
    by_cases hc : P.hdrCov a <;> simp [hc, Memory.writeAll, feedCovered, covered]

/-- The whole-buffer read is always inside the buffer (R34, R157). -/
@[simp] theorem memRead_all (P : Params) (s : State) : memRead P 0 P.hdrLen s = .ok (s.header P) := by
  simp [memRead, Params.scratchCap, State.header, Memory.bytes]

/-- Header completion: BEGIN and one answer, or the wait for an answer that never comes (R157, R193). -/
theorem completeHeader_eq (P : Params) (s : State) :
    completeHeader P s = match s.answers with
      | [] => .error .beginUnanswered
      | a :: as => .ok { s with
          answers := as, cnt := 0, out := s.out ++ [.event (.beginFrame (s.header P))]
          st := if accepted P (s.header P) a then .data else .throwAway } := by
  unfold completeHeader askBegin
  rw [memRead_all]
  cases s.answers <;> rfl

/-- The state after a Header step has stored `k` payload bytes. -/
def headerStored (P : Params) (B : List Byte) (s : State) : State :=
  let k := min B.length (P.hdrLen - s.cnt)
  { s with
    scratch := s.scratch.writeAll s.cnt (B.take k), csp := feedCovered P s.cnt (B.take k) s.csp, cnt := s.cnt + k }

/-- What the Header step does: store, then ask for more or complete (R156, R157). -/
theorem stepHeader_eq (P : Params) (B : List Byte) (s : State) :
    stepHeader P B s =
      let k := min B.length (P.hdrLen - s.cnt)
      if s.cnt + k < P.hdrLen then .ok (.needMore (B.drop k) (headerStored P B s))
      else match completeHeader P (headerStored P B s) with
        | .error f => .error f
        | .ok t => .ok (.advanced (B.drop k) t) := by
  have hstore : storeHeader P (B.take (min B.length (P.hdrLen - s.cnt))) s.cnt s
      = .ok { s with
          scratch := s.scratch.writeAll s.cnt (B.take (min B.length (P.hdrLen - s.cnt)))
          csp := feedCovered P s.cnt (B.take (min B.length (P.hdrLen - s.cnt))) s.csp } := by
    by_cases hc : s.cnt ≤ P.hdrLen
    · exact storeHeader_spec P _ _ _ (by rw [List.length_take]; omega)
    · rw [show P.hdrLen - s.cnt = 0 by omega]
      simp [storeHeader, Memory.writeAll, feedCovered, covered]
  simp only [stepHeader, hstore, headerStored] <;> rfl

/-! States Data and ThrowAway. -/

/-- What the Data step can do (R160, R161): with no completion the payload is used up; the body bytes go out in at most one
BODY event. -/
theorem stepData_cases (P : Params) (B : List Byte) (s : State) :
    ∃ (t : State) (evs : List Event), t.out = s.out ++ evs.map .event ∧ (∀ e ∈ evs, ∃ d, e = .body d) ∧ t.answers = s.answers ∧ t.csh = s.csh
      ∧ t.intron = s.intron ∧ t.rst = s.rst ∧ t.cmd = s.cmd ∧ t.st = s.st ∧ t.scratch = s.scratch ∧ t.valid = s.valid
      ∧ (B.length < s.bodyLen P - s.cnt ∧ stepData P B s = .needMore [] t
        ∨ s.bodyLen P - s.cnt ≤ B.length
          ∧ stepData P B s = .advanced (B.drop (s.bodyLen P - s.cnt)) (completeBody P t)) := by
  by_cases hk : 0 < min B.length (s.bodyLen P - s.cnt)
  · refine ⟨{ emit (.body (B.take (min B.length (s.bodyLen P - s.cnt))))
        { s with csp := csaUpdate s.csp (B.take (min B.length (s.bodyLen P - s.cnt))) } with
          cnt := s.cnt + min B.length (s.bodyLen P - s.cnt) },
      [.body (B.take (min B.length (s.bodyLen P - s.cnt)))], rfl, by simp, rfl, rfl, rfl, rfl, rfl, rfl, rfl, rfl, ?_⟩
    by_cases hl : B.length < s.bodyLen P - s.cnt
    · refine .inl ⟨hl, ?_⟩
      simp only [stepData, if_pos hk]
      rw [if_pos (by omega), List.drop_eq_nil_of_le (by omega)]
    · refine .inr ⟨by omega, ?_⟩
      simp only [stepData, if_pos hk]
      rw [if_neg (by omega), show min B.length (s.bodyLen P - s.cnt) = s.bodyLen P - s.cnt by omega]
  · refine ⟨{ s with cnt := s.cnt + min B.length (s.bodyLen P - s.cnt) }, [], by simp, by simp, rfl, rfl, rfl, rfl, rfl, rfl,
      rfl, rfl, ?_⟩
    by_cases hl : B.length < s.bodyLen P - s.cnt
    · refine .inl ⟨hl, ?_⟩
      simp only [stepData, if_neg hk]
      rw [if_pos (by omega), List.drop_eq_nil_of_le (by omega)]
    · refine .inr ⟨by omega, ?_⟩
      simp only [stepData, if_neg hk]
      rw [if_neg (by omega), show min B.length (s.bodyLen P - s.cnt) = s.bodyLen P - s.cnt by omega]

/-- What the ThrowAway step does (R164, R165). -/
theorem stepThrow_eq (P : Params) (B : List Byte) (s : State) :
    stepThrow P B s =
      if s.cnt + B.length < s.bodyLen P then .needMore [] { s with cnt := s.cnt + B.length }
      else .advanced (B.drop (s.bodyLen P - s.cnt)) (completeDrain s) := by
  by_cases hl : s.cnt + B.length < s.bodyLen P
  · simp only [stepThrow]
    rw [show min B.length (s.bodyLen P - s.cnt) = B.length by omega, if_pos hl, if_pos hl, List.drop_length]
  · simp only [stepThrow]
    rw [if_neg (by omega), if_neg hl, show min B.length (s.bodyLen P - s.cnt) = s.bodyLen P - s.cnt by omega]
    rfl

/-! One round and the loop. -/

/-- No BODY event asks for an answer. -/
theorem beginCount_bodies {evs : List Event} (h : ∀ e ∈ evs, ∃ d, e = .body d) : beginCount evs = 0 := by
  induction evs with
  | nil => rfl
  | cons e es ih =>
    obtain ⟨d, rfl⟩ := h e (by simp)
    simpa [beginCount] using ih fun e he => h e (by simp [he])

/-- The frame of one round; a round stops only where a BEGIN answer never comes (R138, R193). -/
theorem fpRound_frame (P : Params) (B : List Byte) (s : State) :
    (fpRound P B s = .error .beginUnanswered ∧ s.st = .header ∧ s.answers = [])
      ∨ (∃ t, fpRound P B s = .ok (.needMore [] t) ∧ ParserFrame s t ∧ t.st = s.st)
      ∨ ∃ rest t, fpRound P B s = .ok (.advanced rest t) ∧ rest <:+ B ∧ ParserFrame s t ∧ t.st ≠ s.st := by
  cases hst : s.st with
  | intron =>
    have hr : fpRound P B s = .ok (stepIntron P B s) := by simp [fpRound, hst]
    rcases stepIntron_cases P B s with ⟨k, h⟩ | ⟨u, b, rest, hB, h⟩
    · exact .inr (.inl ⟨{ s with mpos := k }, by rw [hr, h], ⟨[], by simp [beginCount]⟩, hst⟩)
    · exact .inr (.inr ⟨rest, _, by rw [hr, h], ⟨u ++ [b], by simp [hB]⟩, ⟨[.resetFrame], by simp [beginCount]⟩, by simp⟩)
  | header =>
    have hr : fpRound P B s = stepHeader P B s := by simp [fpRound, hst]
    rw [hr, stepHeader_eq]
    by_cases hk : s.cnt + min B.length (P.hdrLen - s.cnt) < P.hdrLen
    · refine .inr (.inl ⟨headerStored P B s, ?_, ⟨[], by simp [beginCount, headerStored]⟩, hst⟩)
      simp only [if_pos hk]
      rw [List.drop_eq_nil_of_le (by omega)]
    · simp only [if_neg hk, completeHeader_eq]
      cases ha : s.answers with
      | nil => exact .inl ⟨by simp [headerStored, ha], by trivial⟩
      | cons a as =>
        have ha' : (headerStored P B s).answers = a :: as := ha
        simp only [ha']
        refine .inr (.inr ⟨_, _, rfl, List.drop_suffix _ _,
          ⟨[.beginFrame ((headerStored P B s).header P)], rfl, by simp [beginCount, ha], rfl, rfl, rfl, rfl⟩, ?_⟩)
        dsimp only
        split <;> simp
  | data =>
    have hr : fpRound P B s = .ok (stepData P B s) := by simp [fpRound, hst]
    obtain ⟨t, evs, h1, h2, h3, h4, h5, h6, h7, h8, -, -, ⟨-, h⟩ | ⟨-, h⟩⟩ := stepData_cases P B s
    · exact .inr (.inl ⟨t, by rw [hr, h], ⟨evs, h1, by simp [beginCount_bodies h2, h3], h4, h5, h6, h7⟩, h8.trans hst⟩)
    · refine .inr (.inr ⟨_, _, by rw [hr, h], List.drop_suffix _ _, ParserFrame.trans
        ⟨evs, h1, by simp [beginCount_bodies h2, h3], h4, h5, h6, h7⟩
        ⟨[.complete _, .typeHook _ _], completeBody_out P t, by simp [beginCount]⟩, by simp⟩)
  | throwAway =>
    have hr : fpRound P B s = .ok (stepThrow P B s) := by simp [fpRound, hst]
    rw [hr, stepThrow_eq]
    by_cases hl : s.cnt + B.length < s.bodyLen P
    · exact .inr (.inl ⟨{ s with cnt := s.cnt + B.length }, by rw [if_pos hl], ⟨[], by simp [beginCount]⟩, hst⟩)
    · exact .inr (.inr ⟨_, _, by rw [if_neg hl], List.drop_suffix _ _, ⟨[.invalid], by simp [beginCount]⟩, by simp⟩)

/-- The frame of the loop: it uses up the payload, or stops for want of a BEGIN answer or of rounds (R141, R193). -/
theorem fpLoop_frame (P : Params) (n : Nat) (B : List Byte) (s : State) :
    fpLoop P n B s = .error .beginUnanswered ∨ fpLoop P n B s = .error .loopBound
      ∨ ∃ t, fpLoop P n B s = .ok ([], t) ∧ ParserFrame s t := by
  induction n generalizing B s with
  | zero => exact .inr (.inl rfl)
  | succ n ih =>
    rcases fpRound_frame P B s with ⟨h, -⟩ | ⟨t, h, hf, -⟩ | ⟨rest, t, h, -, hf, -⟩
    · exact .inl (by simp [fpLoop, h])
    · exact .inr (.inr ⟨t, by simp [fpLoop, h], hf⟩)
    · have hl : fpLoop P (n + 1) B s = fpLoop P n rest t := by simp [fpLoop, h]
      rw [hl]
      rcases ih rest t with h' | h' | ⟨u, h', hf'⟩
      · exact .inl h'
      · exact .inr (.inl h')
      · exact .inr (.inr ⟨u, h', hf.trans hf'⟩)

end Sys2Proof.Machine
end

