-- ==== Sys2Proof/Laws/PerInstr.lean ====
section
/-! SUPPORT. The statement made once per command: its packet's opcode byte stands in its own row of the opcode map, with the
fields and the payload the row's format gives it (R71, R72). -/

namespace Sys2Proof.Laws

/-- The opcode byte of a command's packet is the one of its row and of no other; its payload, when the command is well formed,
has a length the row's format admits. -/
def OpcodeRow.Statement (i : Instr) : Prop :=
  Opcode.ofByte (encode i).op = some i.opcode
    ∧ ∀ P : Params, i.wellFormed P = true → i.opcode.format.admits P (encode i).payload.length = true

/-- The opcode lookup at a row's own byte finds the row (R72). -/
theorem ofByte_byte (o : Opcode) : Opcode.ofByte o.byte = some o := by cases o <;> rfl

theorem OpcodeRow.csReset : OpcodeRow.Statement .csReset := ⟨ofByte_byte _, fun _ _ => rfl⟩

theorem OpcodeRow.csUpdate (B : List Byte) : OpcodeRow.Statement (.csUpdate B) := ⟨ofByte_byte _, fun _ _ => rfl⟩

theorem OpcodeRow.csGet : OpcodeRow.Statement .csGet := ⟨ofByte_byte _, fun _ _ => rfl⟩

theorem OpcodeRow.fpReset : OpcodeRow.Statement .fpReset := ⟨ofByte_byte _, fun _ _ => rfl⟩

theorem OpcodeRow.fpSetIntron (B : List Byte) : OpcodeRow.Statement (.fpSetIntron B) := ⟨ofByte_byte _, fun _ h => h⟩

theorem OpcodeRow.fpProcess (B : List Byte) : OpcodeRow.Statement (.fpProcess B) := ⟨ofByte_byte _, fun _ _ => rfl⟩

theorem OpcodeRow.fpStatus : OpcodeRow.Statement .fpStatus := ⟨ofByte_byte _, fun _ _ => rfl⟩

end Sys2Proof.Laws
end

