-- ==== Sys2Proof/Tests/Slice0.lean ====
section
/-! SUPPORT. The model's own tests: expected results from spec/95_test_vectors.md (V and P numbers) or worked out by hand from
the rules; and one witness per statement that has hypotheses. -/

namespace Sys2Proof.Tests

open Sys2Proof.Machine

/-- The test configuration TC1 (95_test_vectors.md, section 3). -/
def TC1 : Params where
  intronLenPred := 3
  intronReset := #v[0xA5, 0x5A, 0xC3, 0x3C]
  hdrLenPred := 7
  typeBitsPred := 7
  lenBitsPred := 15
  hdrType h := h.getD 0 0
  hdrBlen h := h.getD 3 0 ++ h.getD 2 0
  hdrCksum h := h.getD 7 0 ++ h.getD 6 0 ++ h.getD 5 0 ++ h.getD 4 0
  hdrCov i := i < 4
  types := [1, 2, 3, 4]
  lenValid _ l := l.toNat ≤ 32

/-- TC1 after hardware reset, with the FH's coming answers. -/
def s0 (as : List Answer) : State := { State.resetWith TC1 with answers := as }

/-- The core after hardware reset, with beats on the command port. -/
def onPort (bs : List Beat) : State := { State.reset with cmd := bs }

/-- The next state, if there is one. -/
def after : Host.Outcome State Fault Refusal → Option State
  | .next t => some t
  | .fault _ | .refused _ => none

/-- FP.PROCESS under TC1. -/
def feed (B : List Byte) (s : State) : Option State := after (fpProcess TC1 B s)

def outOf (t : Option State) : List Output := (t.map State.out).getD []

def eventsOf (es : List Event) : List Output := es.map .event ++ [.response ⟨.ok, []⟩]

def f1Header : List Byte := [0x01, 0x00, 0x03, 0x00, 0x7A, 0xBC, 0x2E, 0x78]

def pattern : List Byte := [0xA5, 0x5A, 0xC3, 0x3C]

/-- Frame F1 (95_test_vectors.md). -/
def F1 : List Byte := pattern ++ f1Header ++ [0xAA, 0xBB, 0xCC]

/-- The header of frame Z: type 3, declared length 0. -/
def zHeader : List Byte := [0x03, 0x7E, 0x00, 0x00, 0x03, 0x7E, 0x06, 0xFC]

/-! ## WellFormed: what the check refuses (R71, R74(c)) -/

theorem test_wellFormed_intron_short : (Instr.fpSetIntron [0xA5, 0x5A, 0xC3]).wellFormed TC1 = false := by decide
theorem test_wellFormed_intron_long : (Instr.fpSetIntron [0xA5, 0x5A, 0xC3, 0x3C, 0x00]).wellFormed TC1 = false := by decide
theorem test_wellFormed_intron_empty : (Instr.fpSetIntron []).wellFormed Config.params = false := rfl
theorem test_wellFormed_intron_exact : (Instr.fpSetIntron pattern).wellFormed TC1 = true := by decide

/-! ## Decoding: words written out from the opcode map (R72), fields `unit` and `fn` from R71 -/

theorem test_decode_csReset : decodeTableWord 8 0b00000000 = some .csReset := rfl
theorem test_decode_csUpdate : decodeTableWord 8 0b00000001 = some (.csUpdate []) := rfl
theorem test_decode_csUpdate_payload : decodeTableWord 24 0x62_61_01 = some (.csUpdate [0x61, 0x62]) := rfl
theorem test_decode_csGet : decodeTableWord 8 0b00000010 = some .csGet := rfl
theorem test_decode_fpReset : decodeTableWord 8 0b00010000 = some .fpReset := rfl
theorem test_decode_fpProcess : decodeTableWord 16 0xA5_12 = some (.fpProcess [0xA5]) := rfl
theorem test_decode_fpStatus : decodeTableWord 8 0b00010011 = some .fpStatus := rfl
/-- FP.SETINTRON at TC1, V41's word `11 A5 5A C3 3C`. -/
theorem test_decode_fpSetIntron : decode TC1 ⟨0b00010001, pattern⟩ = .ok (.fpSetIntron pattern) := rfl
/-- At the core's own parameters the table's word is filled up to `INTRON_LEN` zero bytes (log 13). -/
theorem test_decode_fpSetIntron_table :
    decodeTableWord 8 0b00010001 = some (.fpSetIntron (List.replicate Config.params.intronLen 0)) := by
  have h : tablePacket 8 0b00010001 = ⟨0x11, List.replicate Config.params.intronLen 0⟩ := rfl
  simp only [decodeTableWord, h, decode, show Opcode.ofByte 0x11 = some .fpSetIntron from rfl, Opcode.format, Format.admits,
    List.length_replicate, beq_self_eq_true, if_true, Opcode.command]
theorem test_opcode_fields : (opUnit 0x13, opFn 0x13) = (1, 3) := by decide
/-- V43: the illegal packets. -/
theorem test_illegal_packets :
    (∀ op ∈ [0x03, 0x14, 0x20, (0xFF : Byte)], (decode TC1 ⟨op, []⟩).toBool = false)
      ∧ (∀ op ∈ [0x00, 0x02, 0x10, (0x13 : Byte)], (decode TC1 ⟨op, [0x00]⟩).toBool = false)
      ∧ (decode TC1 ⟨0x11, [0xA5, 0x5A, 0xC3]⟩).toBool = false
      ∧ (decode TC1 ⟨0x11, pattern ++ [0x00]⟩).toBool = false := by decide
/-- V43: their legal neighbours. -/
theorem test_legal_packets :
    (∀ op ∈ [0x00, 0x01, 0x02, 0x10, 0x12, (0x13 : Byte)], (decode TC1 ⟨op, []⟩).toBool = true) := by decide

/-! ## Written lines (R79) -/

theorem test_line_update : parseLine ['c', 's', '.', 'u', 'p', 'd', 'a', 't', 'e', ' ', '6', '1', ' ', 'A', '5']
    = some ⟨0x01, [0x61, 0xA5]⟩ := by decide
/-- A quoted string stands for its ASCII bytes, a semicolon starts a comment. -/
theorem test_line_string : parseLine ['f', 'p', '.', 'p', 'r', 'o', 'c', 'e', 's', 's', ' ', '"', 'a', ';', '"', ';', 'x']
    = some ⟨0x12, [0x61, 0x3B]⟩ := by decide
/-- Log 15: a byte may follow a closing quote without a space; a string may not follow a byte so. -/
theorem test_line_after_quote :
    parsePayload false [' ', '"', 'a', '"', '6', '1'] = some [0x61, 0x61] ∧ parsePayload false [' ', '6', '1', '"', 'a', '"'] = none := by
  decide
theorem test_feed_pieces : fpFeed 2 [1, 2, 3, 4, 5] = some [.fpProcess [1, 2], .fpProcess [3, 4], .fpProcess [5]] := by
  decide

/-! ## One step per command -/

/-- V15: CS.RESET drops the sums and the pending byte. -/
theorem test_csReset : (after (exec .csReset { s0 [] with csh := ⟨0xC6C4, 0x2926, true, 0x65⟩ })).map State.csh
    = some ⟨0, 0, false, 0⟩ := by decide
/-- V5: "abcde" from reset. -/
theorem test_csUpdate : (after (exec (.csUpdate [0x61, 0x62, 0x63, 0x64, 0x65]) (s0 []))).map State.csh
    = some ⟨0xC6C4, 0x2926, true, 0x65⟩ := by decide
/-- P1 line 3: the pending byte is the low byte of the first word. -/
theorem test_csUpdate_pending :
    (after (exec (.csUpdate [0x62, 0x63, 0x64]) { s0 [] with csh := ⟨0, 0, true, 0x61⟩ })).map State.csh
      = some ⟨0xC6C4, 0x2926, false, 0⟩ := by decide
/-- V18: the worst case of R108. -/
theorem test_csUpdate_worst_pass : csaUpdate ⟨0xFFFE, 0xFFFE, false, 0⟩ (List.replicate 720 0xFF)
    = ⟨0xFFFE, 0xFE96, false, 0⟩ := by decide +kernel
/-- P1 line 7: CS.GET folds the pending byte, low byte first; the accumulator stays (V14). -/
theorem test_csGet : after (exec .csGet { s0 [] with csh := ⟨0xC6C4, 0x2926, true, 0x65⟩ })
    = some { s0 [] with csh := ⟨0xC6C4, 0x2926, true, 0x65⟩, out := [.response ⟨.ok, [0x29, 0xC7, 0x4F, 0xF0]⟩] } := by decide
/-- V40: FP.RESET in the middle of a body. -/
theorem test_fpReset : after (exec .fpReset { s0 [] with
      st := .data, cnt := 2, csp := ⟨0xBBAE, 0xBBB3, false, 0⟩, scratch := [(0, 0x01), (2, 0x03)], valid := true })
    = some { s0 [] with out := [.response ⟨.ok, []⟩] } := by decide
/-- V41: the same pattern again loses the partial match. -/
theorem test_fpSetIntron : fpSetIntron TC1 pattern { s0 [] with mpos := 3 } = { s0 [] with out := [.response ⟨.ok, []⟩] } := by
  decide
/-- V41: three bytes are illegal and change nothing. -/
theorem test_fpSetIntron_short : fpSetIntron TC1 [0xA5, 0x5A, 0xC3] { s0 [] with mpos := 3 }
    = { s0 [] with mpos := 3, out := [.response ⟨.illegal, []⟩] } := by decide
/-- V31: a stray first byte, then frame F1: events and end state as V30. -/
theorem test_fpProcess_frame : feed (0xA5 :: F1) (s0 [.beat 1]) = some { s0 [] with
      csp := ⟨0xBBAE, 0xBBB3, true, 0xCC⟩, valid := true
      scratch := [(0, 0x01), (2, 0x03), (4, 0x7A), (5, 0xBC), (6, 0x2E), (7, 0x78)]
      out := eventsOf [.resetFrame, .beginFrame f1Header, .body [0xAA, 0xBB, 0xCC], .complete true, .typeHook 1 true] } := by
  decide +kernel
/-- V38: frame Z, a body of length 0, completes with its header. -/
theorem test_fpProcess_zero_length : outOf (feed (pattern ++ zHeader) (s0 [.beat 1]))
    = eventsOf [.resetFrame, .beginFrame zHeader, .complete true, .typeHook 3 true] := by decide +kernel
/-- V30's end: FP.STATUS after a good frame is 04; in a body with `valid` set it is 06 (R145). -/
theorem test_fpStatus :
    outOf (after (exec .fpStatus { s0 [] with valid := true })) = [.response ⟨.ok, [0x04]⟩]
      ∧ outOf (after (exec .fpStatus { s0 [] with st := .data, valid := true })) = [.response ⟨.ok, [0x06]⟩] := by decide
/-- R181: the packet of TYPE(1, 1) under TC1. -/
theorem test_type_event : Event.beats TC1 (.typeHook 1 true) = [⟨0x05, false⟩, ⟨0x01, false⟩, ⟨0x01, true⟩] := by decide

/-- P1 line 7: the beats of CS.GET's response `00 29 C7 4F F0`; V43: an illegal packet's answer is the one beat `01`. -/
theorem test_response_beats :
    Response.beats ⟨.ok, [0x29, 0xC7, 0x4F, 0xF0]⟩
        = [⟨0x00, false⟩, ⟨0x29, false⟩, ⟨0xC7, false⟩, ⟨0x4F, false⟩, ⟨0xF0, true⟩]
      ∧ Response.beats ⟨.illegal, []⟩ = [⟨0x01, true⟩] := by decide

/-! ## The step, with a table word first after reset -/

theorem test_step_csGet : (after (step (State.reset.withFetchWord 8 0x02))).map State.out
    = some [.response ⟨.ok, [0, 0, 0, 0]⟩] := rfl
theorem test_step_fpStatus : (after (step (State.reset.withFetchWord 8 0x13))).map State.out
    = some [.response ⟨.ok, [0x00]⟩] := rfl
theorem test_step_illegal : (after (step (State.reset.withFetchWord 8 0x14))).map State.out
    = some [.response ⟨.illegal, []⟩] := rfl
theorem test_step_takes_one_packet : (after (step (onPort [⟨0x01, false⟩, ⟨0x61, true⟩, ⟨0x02, true⟩]))).map State.cmd
    = some [⟨0x02, true⟩] := rfl

/-! ## Witnesses: for each statement with hypotheses, a state and operands that meet them -/

theorem witness_DecodeEncodeRoundTrip : (Instr.fpSetIntron pattern).wellFormed TC1 = true := by decide
theorem witness_DecodedPacketIsEncoding : decode TC1 ⟨0x11, pattern⟩ = .ok (.fpSetIntron pattern) := rfl
theorem witness_IllegalPacketIsAnswered_opcode :
    (onPort [⟨0x03, true⟩]).rst = false ∧ fetchPacket (onPort [⟨0x03, true⟩]).cmd = some (⟨0x03, []⟩, [])
      ∧ IllegalPacket Config.params ⟨0x03, []⟩ := ⟨rfl, rfl, .inl (by decide)⟩
theorem witness_IllegalPacketIsAnswered_payload :
    fetchPacket (onPort [⟨0x13, false⟩, ⟨0x00, true⟩]).cmd = some (⟨0x13, [0x00]⟩, [])
      ∧ IllegalPacket Config.params ⟨0x13, [0x00]⟩ := ⟨rfl, .inr (.inl (by decide))⟩
theorem witness_IllegalPacketIsAnswered_intron :
    fetchPacket (onPort [⟨0x11, true⟩]).cmd = some (⟨0x11, []⟩, []) ∧ IllegalPacket Config.params ⟨0x11, []⟩ :=
  ⟨rfl, .inr (.inr ⟨rfl, by simp [Params.intronLen]⟩)⟩
theorem witness_FramedPacketIsTaken :
    (∀ b ∈ [(⟨0x01, false⟩ : Beat)], b.last = false) ∧ (⟨0x61, true⟩ : Beat).last = true := by decide
theorem witness_StepRunsDecodedCommand :
    (onPort [⟨0x13, true⟩]).rst = false ∧ fetchPacket (onPort [⟨0x13, true⟩]).cmd = some (⟨0x13, []⟩, [])
      ∧ decode Config.params ⟨0x13, []⟩ = .ok .fpStatus := ⟨rfl, rfl, rfl⟩
theorem witness_CoreWaitsWithoutPacket :
    (onPort [⟨0x01, false⟩]).rst = false ∧ fetchPacket (onPort [⟨0x01, false⟩]).cmd = none := ⟨rfl, rfl⟩
theorem witness_OneResponseAfterAllEvents :
    fetchPacket (onPort [⟨0x12, true⟩]).cmd = some (⟨0x12, []⟩, [])
      ∧ ∃ t, (onPort [⟨0x12, true⟩]).rst = false ∧ step (onPort [⟨0x12, true⟩]) = .next t := ⟨rfl, _, rfl, rfl⟩
theorem witness_OneResponseAfterAllEvents_no_event :
    fetchPacket (onPort [⟨0x13, true⟩]).cmd = some (⟨0x13, []⟩, []) ∧ (0x13 : Byte) ≠ 0x12
      ∧ ∃ t, step (onPort [⟨0x13, true⟩]) = .next t := ⟨rfl, by decide, _, rfl⟩
theorem witness_ResetsCompared :
    { State.reset with rst := true }.rst = true
      ∧ (List.replicate Config.params.intronLen (0 : Byte)).length = Config.params.intronLen := ⟨rfl, List.length_replicate⟩
/-- A core that has all of a header but no answer to come. -/
theorem witness_OnlyUnansweredBeginStops :
    exec (.fpProcess []) { State.reset with st := .header, cnt := Config.params.hdrLen } = .fault .beginUnanswered := by
  simp [exec, execFpProcess, fpProcess, fpRun, fpLoop, fpRound, stepHeader, storeHeader, completeHeader, memRead, askBegin,
    Params.scratchCap, State.reset, State.resetWith]
theorem witness_CsUpdateRefinesFlatForm : CsaOk ⟨0xFFFE, 0xFFFE, true, 0xFF⟩ := by decide
theorem witness_PassNeverOverflows :
    (⟨65534, 65534⟩ : PassRegs).a0.toNat ≤ 65534 ∧ (⟨65534, 65534⟩ : PassRegs).a1.toNat ≤ 65534 ∧ 360 ≤ 360
      ∧ 2 * 360 ≤ (List.replicate 720 (0xFF : Byte)).length :=
  ⟨by decide, by decide, le_rfl, by rw [List.length_replicate]⟩
theorem witness_SumsStayReduced : CsaOk ⟨0xFFFE, 0xFFFE, false, 0⟩ := by decide
theorem witness_ChecksumIsChunkInvariant : CsaOk ⟨0xC6C4, 0x2926, true, 0x65⟩ := by decide
theorem witness_ChecksumConsequences :
    (∀ w ∈ wordPairs (padEven [0xFF, 0xFF, 0x00]), w = 0 ∨ w = 0xFFFF) ∧ [(0x61 : Byte), 0x62].length % 2 = 0
      ∧ [(0x61 : Byte)].length % 2 = 1
      ∧ ∃ t u, exec .csGet State.reset = .next t ∧ exec .csGet t = .next u := ⟨by decide, rfl, rfl, _, _, rfl, rfl⟩
theorem witness_PseudoCommandsExpand : 0 < 1 := by decide
theorem witness_FpSetIntronResult_word : pattern.length = TC1.intronLen := rfl
theorem witness_FpSetIntronResult :
    (List.replicate Config.params.intronLen (0 : Byte)).length = Config.params.intronLen := List.length_replicate
theorem witness_WrongIntronLengthChangesNothing : ([] : List Byte).length ≠ Config.params.intronLen := by
  simp [Params.intronLen]
theorem witness_FpProcessCompletes :
    ([] : List Byte).length < { State.reset with answers := [.beat 1] }.answers.length
      ∧ F1.length < { State.reset with answers := List.replicate 16 (.beat 1) }.answers.length := by decide
theorem witness_UnansweredBeginHasNoStep :
    { s0 [] with st := .header, cnt := 7 }.st = .header ∧ TC1.hdrLen ≤ { s0 [] with st := .header, cnt := 7 }.cnt + [(0 : Byte)].length
      ∧ { s0 [] with st := .header, cnt := 7 }.answers = [] := by decide
theorem witness_RoundNeedsMoreOrAdvances :
    (∃ t, fpRound TC1 [] (s0 []) = .ok (.needMore [] t)) ∧ ∃ rest t, fpRound TC1 F1 (s0 []) = .ok (.advanced rest t) :=
  ⟨⟨_, rfl⟩, _, _, rfl⟩
theorem witness_RoundNeedsMoreOrAdvances_intron :
    { s0 [] with mpos := 3 }.st = .intron ∧ { s0 [] with mpos := 3 }.intron.length = TC1.intronLen
      ∧ { s0 [] with mpos := 3 }.mpos < TC1.intronLen
      ∧ ∃ t, fpRound TC1 [0xA5] { s0 [] with mpos := 3 } = .ok (.needMore [] t) := ⟨rfl, rfl, by decide, _, rfl⟩
theorem witness_RoundNeedsMoreOrAdvances_counts :
    (∃ t, fpRound TC1 [1] { s0 [] with st := .header } = .ok (.needMore [] t))
      ∧ ∃ t, fpRound TC1 [] { s0 [] with st := .throwAway, scratch := [(2, 1)] } = .ok (.needMore [] t) :=
  ⟨⟨_, rfl⟩, _, rfl⟩
theorem witness_EveryByteIsConsumed : ∃ t, fpRun TC1 [0xA5] (s0 []) = .ok ([], t) := ⟨_, rfl⟩

/-- A rest state in ST_HEADER with all but the last header byte of frame F1. -/
def atHeader (h : List Byte) (k : Nat) : State :=
  { s0 [.beat 1] with st := .header, cnt := k, scratch := (List.range k).foldl (fun m a => m.write a (h.getD a 0)) [] }

/-- A rest state in ST_DATA or ST_THROW with frame F1's header stored. -/
def inBody (st : FsmState) (k : Nat) : State := { atHeader f1Header 8 with st := st, cnt := k }

theorem witness_EmptyPayloadChangesNothing :
    Inv TC1 (s0 []) ∧ Inv TC1 (atHeader f1Header 7) ∧ Inv TC1 (inBody .data 2) ∧ Inv TC1 (inBody .throwAway 2) := by
  refine ⟨?_, ?_, ?_, ?_⟩ <;> decide +kernel
theorem witness_FullMatchStartsFrame :
    { s0 [] with mpos := 3 }.st = .intron ∧ { s0 [] with mpos := 3 }.mpos + 1 = TC1.intronLen
      ∧ { s0 [] with mpos := 3 }.intron[3]? = some 0x3C := by decide
theorem witness_IntronMatchIsSound :
    { s0 [] with mpos := 3 }.intron.length = TC1.intronLen ∧ { s0 [] with mpos := 3 }.mpos < TC1.intronLen
      ∧ (∃ t, stepIntron TC1 [0x00] { s0 [] with mpos := 3 } = .needMore [] t)
      ∧ ∃ t, stepIntron TC1 [0x3C] { s0 [] with mpos := 3 } = .advanced [] t := ⟨rfl, by decide, ⟨_, rfl⟩, _, rfl⟩
/-- The pattern of TC1 does not repeat its first byte. -/
theorem first_byte_unique : ∀ j, 0 < j → (s0 []).intron[j]? ≠ (s0 []).intron[0]? := by
  intro j hj
  rcases j with _ | _ | _ | _ | j
  · omega
  · decide
  · decide
  · decide
  · simp [s0, State.resetWith, TC1]
theorem witness_UniqueFirstByteIsFound :
    (s0 []).intron.length = TC1.intronLen ∧ (∀ j, 0 < j → (s0 []).intron[j]? ≠ (s0 []).intron[0]?)
      ∧ ∃ s1, stepIntron TC1 [0x00, 0xA5] (s0 []) = .needMore [] s1 := ⟨rfl, first_byte_unique, _, rfl⟩
theorem witness_SelfOverlapMissesIntron :
    TC1.intronLen = 4 ∧ { s0 [] with intron := [0x55, 0x4E, 0x55, 0x58] }.st = .intron
      ∧ { s0 [] with intron := [0x55, 0x4E, 0x55, 0x58] }.mpos = 0 := by decide
theorem witness_HeaderBytesAreStored :
    Inv TC1 (atHeader f1Header 0) ∧ (atHeader f1Header 0).st = .header
      ∧ (atHeader f1Header 0).cnt + (f1Header.take 7).length < TC1.hdrLen := by decide +kernel
theorem witness_HeaderCompletionAsksHandler :
    Inv TC1 (atHeader f1Header 7) ∧ (atHeader f1Header 7).st = .header ∧ (atHeader f1Header 7).cnt + [(0x78 : Byte)].length = TC1.hdrLen
      ∧ (atHeader f1Header 7).answers = [.beat 1] ∧ (TC1.hdrBlen ((atHeader f1Header 7).scratch.bytes 7 ++ [0x78])).toNat ≠ 0
      ∧ Accepts TC1 ((atHeader f1Header 7).scratch.bytes 7 ++ [0x78]) (.beat 1) := by decide +kernel
theorem witness_ZeroLengthFrameCompletes :
    Inv TC1 (atHeader zHeader 7) ∧ (atHeader zHeader 7).st = .header ∧ (atHeader zHeader 7).cnt + [(0xFC : Byte)].length = TC1.hdrLen
      ∧ (atHeader zHeader 7).answers = [.beat 1] ∧ (TC1.hdrBlen ((atHeader zHeader 7).scratch.bytes 7 ++ [0xFC])).toNat = 0
      ∧ Accepts TC1 ((atHeader zHeader 7).scratch.bytes 7 ++ [0xFC]) (.beat 1) := by decide +kernel
theorem witness_BodyBytesAreStreamed :
    (inBody .data 0).st = .data ∧ [(0xAA : Byte), 0xBB] ≠ [] ∧ (inBody .data 0).cnt + [(0xAA : Byte), 0xBB].length < (inBody .data 0).bodyLen TC1 := by
  decide +kernel
theorem witness_BodyCompletionReports :
    (inBody .data 2).st = .data ∧ [(0xCC : Byte)] ≠ [] ∧ (inBody .data 2).cnt + [(0xCC : Byte)].length = (inBody .data 2).bodyLen TC1 := by
  decide +kernel
theorem witness_DrainOnlyCounts :
    (inBody .throwAway 0).st = .throwAway
      ∧ (inBody .throwAway 0).cnt + [(0 : Byte), 0].length < (inBody .throwAway 0).bodyLen TC1
      ∧ (inBody .throwAway 0).cnt + [(0 : Byte), 0, 0].length = (inBody .throwAway 0).bodyLen TC1 := by decide +kernel
theorem witness_ByteSerialFormAgrees : Inv TC1 (inBody .data 2) ∧ (fpBytes TC1 F1 (s0 [.beat 1])).toBool = true := by
  decide +kernel
theorem witness_ParserIsChunkInvariant :
    Inv TC1 (s0 [.beat 1]) ∧ (fpRun TC1 [F1.take 2, F1.drop 2].flatten (s0 [.beat 1])).toBool = true := by decide +kernel
theorem witness_AcceptedFrameIsDelivered :
    Inv TC1 (s0 [.beat 1]) ∧ (s0 [.beat 1]).st = .intron ∧ (s0 [.beat 1]).mpos = 0 ∧ f1Header.length = TC1.hdrLen
      ∧ [(0xAA : Byte), 0xBB, 0xCC].length = (TC1.hdrBlen f1Header).toNat ∧ Accepts TC1 f1Header (.beat 1)
      ∧ (s0 [.beat 1]).answers = [.beat 1]
      ∧ [F1.take 5, F1.drop 5].flatten = (s0 [.beat 1]).intron ++ f1Header ++ [0xAA, 0xBB, 0xCC] := by decide +kernel
theorem witness_AcceptedFrameIsDelivered_empty_body :
    zHeader.length = TC1.hdrLen ∧ ([] : List Byte).length = (TC1.hdrBlen zHeader).toNat ∧ Accepts TC1 zHeader (.beat 1) := by
  decide +kernel
/-- Garbage `00 A5` before the pattern of TC1 holds no intron of its own. -/
theorem witness_ResynchronisesAfterGarbage :
    Inv TC1 (s0 [.beat 1]) ∧ Accepts TC1 f1Header (.beat 1) ∧ (∀ j, 0 < j → (s0 [.beat 1]).intron[j]? ≠ (s0 [.beat 1]).intron[0]?)
      ∧ (∀ u v, [0x00, 0xA5] ++ (s0 [.beat 1]).intron = u ++ (s0 [.beat 1]).intron ++ v → v = [])
      ∧ [[0x00, 0xA5] ++ F1].flatten = [0x00, 0xA5] ++ (s0 [.beat 1]).intron ++ f1Header ++ [0xAA, 0xBB, 0xCC] := by
  refine ⟨by decide +kernel, by decide, first_byte_unique, ?_, by decide⟩
  intro u v h
  have hl := congrArg List.length h
  simp only [s0, State.resetWith, TC1, List.length_append, List.length_cons, List.length_nil, Vector.length_toList] at hl
  match u, v with
  | _, [] => rfl
  | [], _ :: _ => simp [s0, State.resetWith, TC1] at h
  | [_], _ :: _ => simp [s0, State.resetWith, TC1] at h
  | _ :: _ :: _, _ :: _ => simp only [List.length_cons] at hl; omega
theorem witness_RejectedFrameIsDrained :
    Inv TC1 (s0 [.beat 0]) ∧ f1Header.length = TC1.hdrLen ∧ [(0xAA : Byte), 0xBB, 0xCC].length = (TC1.hdrBlen f1Header).toNat
      ∧ ¬ Accepts TC1 f1Header (.beat 0) ∧ (s0 [.beat 0]).answers = [.beat 0]
      ∧ [F1].flatten = (s0 [.beat 0]).intron ++ f1Header ++ [0xAA, 0xBB, 0xCC] := by decide +kernel
theorem witness_EventsFollowFrameRecords :
    Inv TC1 (inBody .data 2) ∧ (Phase.begun f1Header [0xAA, 0xBB]).fits TC1 (inBody .data 2)
      ∧ ∃ t, fpProcess TC1 [0xCC] (inBody .data 2) = .next t := by
  refine ⟨by decide +kernel, ?_, _, rfl⟩
  unfold Phase.fits
  decide +kernel
theorem witness_EventPacketsAreEncoded : 255 < 2 ^ TC1.typeBits := by decide
theorem witness_EveryStepKeepsInvariant :
    Inv Config.params (onPort [⟨0x13, true⟩])
      ∧ ∃ t, step (onPort [⟨0x13, true⟩]) = .next t := by
  refine ⟨?_, _, rfl⟩
  simp [Machine.Inv, CsaOk, ScratchOk, AtRest, Memory.wf, Memory.below, onPort, State.reset, State.resetWith, Csa.zero, Params.intronLen]
theorem witness_ProcessEndsAtRest : Inv TC1 (s0 [.beat 1]) ∧ ∃ t, fpProcess TC1 [0xA5] (s0 [.beat 1]) = .next t :=
  ⟨by decide +kernel, _, rfl⟩
theorem witness_CountersFitTheirWidths :
    Inv TC1 { s0 [] with mpos := 3 } ∧ 1 ≤ 2 ∧ TC1.intronLen ≤ 2 ^ 2 ∧ max TC1.hdrLen (2 ^ TC1.lenBits - 1) < 2 ^ 16 := by
  decide +kernel
theorem witness_UnitsKeepToTheirState :
    (∃ t, exec (.csUpdate [1]) State.reset = .next t) ∧ (∃ t, exec .fpStatus State.reset = .next t)
      ∧ ∃ t, exec (.fpProcess []) State.reset = .next t := ⟨⟨_, rfl⟩, ⟨_, rfl⟩, _, rfl⟩
theorem witness_ValidIsLastCompletion : ∃ t, fpProcess TC1 (pattern ++ zHeader) (s0 [.beat 1]) = .next t := ⟨_, rfl⟩

end Sys2Proof.Tests
end

section
/-! Proofs of the statements from 00_scope.md: the decided counter widths (R11) and the independence of the parser from
the host accumulator (R3, R25). -/

namespace Sys2Proof.Machine

/-! The counter widths (R11). -/

theorem intronLen_pos (P : Params) : 0 < P.intronLen := Nat.succ_pos P.intronLenPred

/-- `MPOS_BITS` fits in `k` bits exactly when R11's two conditions hold of `k`. -/
theorem mposBits_le_iff (P : Params) (k : Nat) : P.mposBits ≤ k ↔ 1 ≤ k ∧ P.intronLen ≤ 2 ^ k := by
  rw [Params.mposBits, max_le_iff, Nat.clog_le_iff_le_pow Nat.one_lt_two]

/-- `CNT_BITS` fits in `k` bits exactly when R11's condition holds of `k`. -/
theorem cntBits_le_iff (P : Params) (k : Nat) : P.cntBits ≤ k ↔ max P.hdrLen (2 ^ P.lenBits - 1) < 2 ^ k :=
  Nat.size_le

/-- A declared length is a number of `LEN_BITS` bits (R34). -/
theorem bodyLen_lt (P : Params) (s : State) : s.bodyLen P < 2 ^ P.lenBits := (P.hdrBlen (s.header P)).isLt

/-- At rest the match position is inside the pattern, in every state of the FSM (R42). -/
theorem AtRest.mpos_lt {P : Params} {s : State} (h : AtRest P s) : s.mpos < P.intronLen := by
  obtain ⟨hintron, hheader, hdata, hthrow⟩ := h
  have hpos := intronLen_pos P
  cases hst : s.st with
  | intron => exact (hintron hst).1
  | header => have := (hheader hst).1; omega
  | data => have := (hdata hst).1; omega
  | throwAway => have := (hthrow hst).1; omega

/-- At rest the counter is at most the larger of `HDR_LEN` and the greatest declared length (R42). -/
theorem AtRest.cnt_le {P : Params} {s : State} (h : AtRest P s) : s.cnt ≤ max P.hdrLen (2 ^ P.lenBits - 1) := by
  obtain ⟨hintron, hheader, hdata, hthrow⟩ := h
  have hlen := bodyLen_lt P s
  cases hst : s.st with
  | intron => have := (hintron hst).2; omega
  | header => have := (hheader hst).2.1; omega
  | data => have := (hdata hst).2.1; omega
  | throwAway => have := (hthrow hst).2; omega

/-- Settles O55: each width is characterised by R11's conditions, and the rest-state table bounds both counters by what those
conditions speak of. -/
theorem countersFitTheirWidths : Obligations.CountersFitTheirWidths := by
  intro P
  obtain ⟨hone, hintron⟩ := (mposBits_le_iff P _).1 le_rfl
  have hcnt := (cntBits_le_iff P _).1 le_rfl
  refine ⟨hone, hintron, hcnt, ?fit, fun k h1 hk => (mposBits_le_iff P k).2 ⟨h1, hk⟩, fun k => (cntBits_le_iff P k).2⟩
  case fit =>
    rintro s ⟨-, -, -, -, hrest⟩
    exact ⟨hrest.mpos_lt.trans_le hintron, hrest.cnt_le.trans_lt hcnt⟩

/-! The parser and CSH (R3, R25): replacing CSH commutes with every step function, hence with the loop. -/

/-- A state with another host accumulator. -/
def State.setCsh (A : Csa) (s : State) : State := { s with csh := A }

@[simp] theorem setCsh_st (A : Csa) (s : State) : (s.setCsh A).st = s.st := rfl
@[simp] theorem setCsh_cnt (A : Csa) (s : State) : (s.setCsh A).cnt = s.cnt := rfl
@[simp] theorem setCsh_intron (A : Csa) (s : State) : (s.setCsh A).intron = s.intron := rfl
@[simp] theorem setCsh_answers (A : Csa) (s : State) : (s.setCsh A).answers = s.answers := rfl
@[simp] theorem bodyLen_setCsh (P : Params) (A : Csa) (s : State) : (s.setCsh A).bodyLen P = s.bodyLen P := rfl
@[simp] theorem comparePos_setCsh (A : Csa) (s : State) (b : Byte) : comparePos (s.setCsh A) b = comparePos s b := rfl
@[simp] theorem headerStored_setCsh (P : Params) (A : Csa) (B : List Byte) (s : State) :
    headerStored P B (s.setCsh A) = (headerStored P B s).setCsh A := rfl

/-- A round's result with another host accumulator. -/
def Round.setCsh (A : Csa) : Round → Round
  | .needMore rest s => .needMore rest (s.setCsh A)
  | .advanced rest s => .advanced rest (s.setCsh A)

theorem stepIntron_setCsh (P : Params) (A : Csa) (B : List Byte) (s : State) :
    stepIntron P B (s.setCsh A) = (stepIntron P B s).setCsh A := by
  induction B generalizing s with
  | nil => rfl
  | cons b bs ih =>
    by_cases hmatch : s.intron[comparePos s b]? = some b
    · by_cases hfull : comparePos s b + 1 = P.intronLen
      · simp only [stepIntron, comparePos_setCsh, setCsh_intron, hmatch, hfull, ↓reduceIte]
        rfl
      · simp only [stepIntron, comparePos_setCsh, setCsh_intron, hmatch, hfull, ↓reduceIte]
        exact ih { s with mpos := comparePos s b + 1 }
    · simp only [stepIntron, comparePos_setCsh, setCsh_intron, hmatch, ↓reduceIte]
      exact ih { s with mpos := 0 }

theorem completeHeader_setCsh (P : Params) (A : Csa) (s : State) :
    completeHeader P (s.setCsh A) = (completeHeader P s).map (State.setCsh A) := by
  rw [completeHeader_eq, completeHeader_eq, setCsh_answers]
  cases s.answers <;> rfl

theorem stepHeader_setCsh (P : Params) (A : Csa) (B : List Byte) (s : State) :
    stepHeader P B (s.setCsh A) = (stepHeader P B s).map (Round.setCsh A) := by
  simp only [stepHeader_eq, headerStored_setCsh, completeHeader_setCsh, setCsh_cnt]
  by_cases hmore : s.cnt + min B.length (P.hdrLen - s.cnt) < P.hdrLen
  · simp only [hmore, ↓reduceIte]
    rfl
  · simp only [hmore, ↓reduceIte]
    cases completeHeader P (headerStored P B s) <;> rfl

/-- The body bytes of a Data step taken in: at most one BODY event, and CSP fed (R160). -/
def dataStreamed (P : Params) (B : List Byte) (s : State) : State :=
  let k := min B.length (s.bodyLen P - s.cnt)
  { (if 0 < k then emit (.body (B.take k)) { s with csp := csaUpdate s.csp (B.take k) } else s) with cnt := s.cnt + k }

/-- What the Data step does: take bytes in, then ask for more or complete (R160, R161). -/
theorem stepData_eq (P : Params) (B : List Byte) (s : State) :
    stepData P B s =
      let k := min B.length (s.bodyLen P - s.cnt)
      if s.cnt + k < s.bodyLen P then .needMore (B.drop k) (dataStreamed P B s)
      else .advanced (B.drop k) (completeBody P (dataStreamed P B s)) := rfl

theorem dataStreamed_setCsh (P : Params) (A : Csa) (B : List Byte) (s : State) :
    dataStreamed P B (s.setCsh A) = (dataStreamed P B s).setCsh A := by
  simp only [dataStreamed, setCsh_cnt, bodyLen_setCsh]
  by_cases hk : 0 < min B.length (s.bodyLen P - s.cnt)
  · simp only [hk, ↓reduceIte]
    rfl
  · simp only [hk, ↓reduceIte]
    rfl

theorem stepData_setCsh (P : Params) (A : Csa) (B : List Byte) (s : State) :
    stepData P B (s.setCsh A) = (stepData P B s).setCsh A := by
  simp only [stepData_eq, dataStreamed_setCsh, setCsh_cnt, bodyLen_setCsh]
  by_cases hmore : s.cnt + min B.length (s.bodyLen P - s.cnt) < s.bodyLen P
  · simp only [hmore, ↓reduceIte]
    rfl
  · simp only [hmore, ↓reduceIte]
    rfl

theorem stepThrow_setCsh (P : Params) (A : Csa) (B : List Byte) (s : State) :
    stepThrow P B (s.setCsh A) = (stepThrow P B s).setCsh A := by
  simp only [stepThrow_eq, setCsh_cnt, bodyLen_setCsh]
  by_cases hmore : s.cnt + B.length < s.bodyLen P
  · simp only [hmore, ↓reduceIte]
    rfl
  · simp only [hmore, ↓reduceIte]
    rfl

/-- One round of the parser does not see CSH. -/
theorem fpRound_setCsh (P : Params) (A : Csa) (B : List Byte) (s : State) :
    fpRound P B (s.setCsh A) = (fpRound P B s).map (Round.setCsh A) := by
  simp only [fpRound, setCsh_st]
  cases s.st with
  | intron => exact congrArg Except.ok (stepIntron_setCsh P A B s)
  | header => exact stepHeader_setCsh P A B s
  | data => exact congrArg Except.ok (stepData_setCsh P A B s)
  | throwAway => exact congrArg Except.ok (stepThrow_setCsh P A B s)

/-- The loop does not see CSH, whatever its bound. -/
theorem fpLoop_setCsh (P : Params) (A : Csa) (n : Nat) (B : List Byte) (s : State) :
    fpLoop P n B (s.setCsh A) = (fpLoop P n B s).map fun r => (r.1, r.2.setCsh A) := by
  induction n generalizing B s with
  | zero => rfl
  | succ n ih =>
    rw [fpLoop, fpLoop, fpRound_setCsh]
    cases fpRound P B s with
    | error f => rfl
    | ok r =>
      cases r with
      | needMore rest t => rfl
      | advanced rest t => exact ih rest t

/-- Settles O57: the run is the loop at a bound that depends on the payload alone. -/
theorem parserIgnoresHostAccumulator : Obligations.ParserIgnoresHostAccumulator := fun P B s A =>
  fpLoop_setCsh P A (3 * B.length + 6) B s

end Sys2Proof.Machine
end

section
/-! The accumulator as arithmetic on numbers (R103 to R110): a pass holds the exact sums (R108), an update is the fold of
STEP over the words of the pending byte and the new bytes (R106), and updates compose (R109). -/

namespace Sys2Proof.Machine

/-! Cutting a byte sequence into words (R51). -/

/-- Behind an even number of bytes the words start anew. -/
theorem wordPairs_append {X : List Byte} (Y : List Byte) (h : X.length % 2 = 0) :
    wordPairs (X ++ Y) = wordPairs X ++ wordPairs Y := by
  induction X using wordPairs.induct with
  | case1 lo hi bs ih =>
    simp only [List.length_cons] at h
    simp only [List.cons_append, wordPairs, ih (by omega)]
  | case2 X hX =>
    match X, hX, h with
    | [], _, _ => rfl
    | [_], _, h => simp at h
    | lo :: hi :: bs, hX, _ => exact absurd rfl (hX lo hi bs)

theorem wordPairs_length (B : List Byte) : (wordPairs B).length = B.length / 2 := by
  induction B using wordPairs.induct with
  | case1 lo hi bs ih =>
    simp only [wordPairs, List.length_cons, ih]
    omega
  | case2 B hB =>
    match B, hB with
    | [], _ => rfl
    | [_], _ => simp [wordPairs]
    | lo :: hi :: bs, hB => exact absurd rfl (hB lo hi bs)

/-- Fewer than two bytes make no word. -/
theorem wordPairs_of_lt {B : List Byte} (h : B.length < 2) : wordPairs B = [] := by
  rw [← List.length_eq_zero_iff, wordPairs_length]
  omega

theorem le_of_mem_wordPairs {B : List Byte} {w : Nat} (h : w ∈ wordPairs B) : w ≤ 65535 := by
  induction B using wordPairs.induct with
  | case1 lo hi bs ih =>
    rcases List.mem_cons.1 h with rfl | h
    · have := lo.isLt
      have := hi.isLt
      omega
    · exact ih h
  | case2 B hB => simp [wordPairs] at h

/-- The unpaired last byte of a sequence, if there is one. -/
def oddTail (S : List Byte) : List Byte := S.drop (2 * (S.length / 2))

theorem oddTail_length (S : List Byte) : (oddTail S).length = S.length % 2 := by
  rw [oddTail, List.length_drop]
  omega

theorem oddTail_length_lt (S : List Byte) : (oddTail S).length < 2 := oddTail_length S ▸ Nat.mod_lt _ (by decide)

/-- Fewer than two bytes are all left over. -/
theorem oddTail_of_lt {S : List Byte} (h : S.length < 2) : oddTail S = S := by
  rw [oddTail, show S.length / 2 = 0 by omega]
  rfl

/-- The unpaired last byte does not see an even number of bytes before it. -/
theorem oddTail_append {X : List Byte} (Y : List Byte) (h : X.length % 2 = 0) : oddTail (X ++ Y) = oddTail Y := by
  rw [oddTail, oddTail, List.length_append, show 2 * ((X.length + Y.length) / 2) = X.length + 2 * (Y.length / 2) by omega,
    List.drop_append, List.drop_eq_nil_of_le (by omega), List.nil_append, Nat.add_sub_cancel_left]

/-- A sequence is an even number of bytes that hold all its words, and the unpaired last byte. -/
theorem exists_even_append_oddTail (S : List Byte) :
    ∃ E : List Byte, E.length % 2 = 0 ∧ S = E ++ oddTail S ∧ wordPairs S = wordPairs E := by
  have heven : (S.take (2 * (S.length / 2))).length % 2 = 0 := by
    rw [List.length_take]
    omega
  have hsplit : S = S.take (2 * (S.length / 2)) ++ oddTail S := (List.take_append_drop _ _).symm
  have htail : wordPairs (oddTail S) = [] := wordPairs_of_lt (oddTail_length_lt S)
  exact ⟨_, heven, hsplit, by rw [hsplit, wordPairs_append _ heven, htail, List.append_nil, ← hsplit]⟩

/-! Exact sums and their bounds (R108). -/

/-- The exact sums of `n` equal words. -/
theorem foldl_exactStep_replicate (n w : Nat) (s : Nat × Nat) :
    (List.replicate n w).foldl exactStep s = (s.1 + n * w, s.2 + n * s.1 + (n + 1).choose 2 * w) := by
  induction n generalizing s with
  | zero => simp
  | succ n ih =>
    rw [List.replicate_succ, List.foldl_cons, ih, Nat.choose_succ_succ' (n + 1) 1, Nat.choose_one_right]
    simp only [exactStep]
    ext <;> simp only <;> ring

/-- The exact sums only grow. -/
theorem le_foldl_exactStep (ws : List Nat) (s : Nat × Nat) :
    s.1 ≤ (ws.foldl exactStep s).1 ∧ s.2 ≤ (ws.foldl exactStep s).2 := by
  induction ws generalizing s with
  | nil => exact ⟨le_rfl, le_rfl⟩
  | cons w ws ih =>
    obtain ⟨h0, h1⟩ := ih (exactStep s w)
    exact ⟨(Nat.le_add_right s.1 w).trans h0, (Nat.le_add_right s.2 _).trans h1⟩

/-- Larger words from larger sums give larger sums: words of 0xFFFF are the worst case. -/
theorem foldl_exactStep_le_replicate {ws : List Nat} (hws : ∀ w ∈ ws, w ≤ 65535) {s t : Nat × Nat} (h0 : s.1 ≤ t.1)
    (h1 : s.2 ≤ t.2) :
    (ws.foldl exactStep s).1 ≤ ((List.replicate ws.length 65535).foldl exactStep t).1
      ∧ (ws.foldl exactStep s).2 ≤ ((List.replicate ws.length 65535).foldl exactStep t).2 := by
  induction ws generalizing s t with
  | nil => exact ⟨h0, h1⟩
  | cons w ws ih =>
    obtain ⟨hw, hws⟩ := List.forall_mem_cons.1 hws
    have hstep : (exactStep s w).1 ≤ (exactStep t 65535).1 := Nat.add_le_add h0 hw
    exact ih hws hstep (Nat.add_le_add h1 hstep)

/-- The bounds of R108 on the exact sums of at most 360 words from reduced sums. -/
theorem foldl_exactStep_bound {ws : List Nat} (hws : ∀ w ∈ ws, w ≤ 65535) (hlen : ws.length ≤ 360) {s : Nat × Nat}
    (h0 : s.1 ≤ 65534) (h1 : s.2 ≤ 65534) :
    (ws.foldl exactStep s).1 ≤ 23658134 ∧ (ws.foldl exactStep s).2 ≤ 4282122074 := by
  have hworst := foldl_exactStep_le_replicate hws (t := (65534, 65534)) h0 h1
  have hchoose : (ws.length + 1).choose 2 ≤ Nat.choose 361 2 := Nat.choose_le_choose 2 (by omega)
  have heval : Nat.choose 361 2 = 64980 := by rw [Nat.choose_two_right]
  simp only [foldl_exactStep_replicate] at hworst
  omega

/-! A pass (R104). -/

/-- The pass registers as numbers. -/
def PassRegs.sums (r : PassRegs) : Nat × Nat := (r.a0.toNat, r.a1.toNat)

/-- While the exact sums fit 32 bits, a pass computes them. -/
theorem passWords_sums {k : Nat} {r : PassRegs} {B : List Byte} (hB : 2 * k ≤ B.length)
    (h0 : ((wordPairs (B.take (2 * k))).foldl exactStep r.sums).1 < 2 ^ 32)
    (h1 : ((wordPairs (B.take (2 * k))).foldl exactStep r.sums).2 < 2 ^ 32) :
    (passWords k r B).1.sums = (wordPairs (B.take (2 * k))).foldl exactStep r.sums := by
  induction k generalizing r B with
  | zero => cases B <;> rfl
  | succ k ih =>
    match B, hB with
    | [], hB => simp at hB
    | [_], hB => simp at hB; omega
    | lo :: hi :: bs, hB =>
      simp only [List.length_cons] at hB
      have hwords : wordPairs ((lo :: hi :: bs).take (2 * (k + 1)))
          = (word lo hi).toNat :: wordPairs (bs.take (2 * k)) := by
        rw [word_toNat]
        rfl
      rw [hwords, List.foldl_cons] at h0 h1 ⊢
      obtain ⟨hle0, hle1⟩ := le_foldl_exactStep (wordPairs (bs.take (2 * k))) (exactStep r.sums (word lo hi).toNat)
      simp only [exactStep, PassRegs.sums] at hle0 hle1 h0 h1
      have hadd : (passAdd r (word lo hi)).sums = exactStep r.sums (word lo hi).toNat := by
        obtain ⟨e0, e1⟩ := passAdd_toNat (r := r) (w := word lo hi) (by omega) (by omega)
        exact Prod.ext e0 e1
      rw [passWords, ← hadd]
      exact ih (by omega) (by rw [hadd]; exact h0) (by rw [hadd]; exact h1)

/-- A pass of at most 360 words from reduced registers holds the exact sums, within the bounds of R108. -/
theorem passWords_exact {k : Nat} {r : PassRegs} {B : List Byte} (h0 : r.sums.1 ≤ 65534) (h1 : r.sums.2 ≤ 65534)
    (hk : k ≤ 360) (hB : 2 * k ≤ B.length) :
    (passWords k r B).1.sums = (wordPairs (B.take (2 * k))).foldl exactStep r.sums
      ∧ (passWords k r B).1.sums.1 ≤ 23658134 ∧ (passWords k r B).1.sums.2 ≤ 4282122074 := by
  have hlen : (wordPairs (B.take (2 * k))).length ≤ 360 := by
    rw [wordPairs_length, List.length_take]
    omega
  obtain ⟨hb0, hb1⟩ := foldl_exactStep_bound (fun _ => le_of_mem_wordPairs) hlen h0 h1
  have hexact := passWords_sums (r := r) hB (by omega) (by omega)
  exact ⟨hexact, by rw [hexact]; exact hb0, by rw [hexact]; exact hb1⟩

/-- Settles O16: the worst case of a pass is 0xFFFF from 65534, and the exact sums of that have a closed form. -/
theorem passNeverOverflows : Obligations.PassNeverOverflows := by
  refine ⟨fun r k B h0 h1 hk hB => ?pass, ?reached, ?exceeded⟩
  case pass =>
    obtain ⟨hexact, hb0, hb1⟩ := passWords_exact (r := r) h0 h1 hk hB
    exact ⟨_, Prod.ext rfl (passWords_rest r hB), hexact, hb0, hb1⟩
  case reached =>
    rw [foldl_exactStep_replicate, Nat.choose_two_right]
    rfl
  case exceeded =>
    rw [foldl_exactStep_replicate, Nat.choose_two_right]
    decide

/-! The bulk passes (R104) as the fold of STEP (R103). -/

/-- Both sums modulo 65535. -/
def reduceSums (s : Nat × Nat) : Nat × Nat := (s.1 % 65535, s.2 % 65535)

/-- Both sums are reduced (R22). -/
abbrev Reduced (s : Nat × Nat) : Prop := s.1 < 65535 ∧ s.2 < 65535

theorem reduceSums_eq {s : Nat × Nat} (h : Reduced s) : reduceSums s = s :=
  Prod.ext (Nat.mod_eq_of_lt h.1) (Nat.mod_eq_of_lt h.2)

theorem reduced_reduceSums (s : Nat × Nat) : Reduced (reduceSums s) :=
  ⟨Nat.mod_lt _ (by decide), Nat.mod_lt _ (by decide)⟩

/-- Reducing at the end is the same as reducing at every word (R107). -/
theorem foldl_sumStep_reduceSums (ws : List Nat) (s : Nat × Nat) :
    ws.foldl sumStep (reduceSums s) = reduceSums (ws.foldl exactStep s) := by
  induction ws generalizing s with
  | nil => rfl
  | cons w ws ih =>
    have hstep : sumStep (reduceSums s) w = reduceSums (exactStep s w) := by
      simp only [sumStep, reduceSums, exactStep]
      ext <;> simp only <;> omega
    rw [List.foldl_cons, List.foldl_cons, hstep, ih]

/-- STEP keeps reduced sums reduced (R22). -/
theorem foldl_sumStep_reduced (ws : List Nat) {s : Nat × Nat} (h : Reduced s) : Reduced (ws.foldl sumStep s) := by
  rw [← reduceSums_eq h, foldl_sumStep_reduceSums]
  exact reduced_reduceSums _

theorem passReduce_sums (r : PassRegs) : (passReduce r).sums = reduceSums r.sums :=
  Prod.ext (passReduce_toNat r).1 (passReduce_toNat r).2

theorem passReduce_reduced (r : PassRegs) : Reduced (passReduce r).sums := by
  rw [passReduce_sums]
  exact reduced_reduceSums _

/-- The bulk passes fold STEP over the words of their bytes. -/
theorem bulkPasses_sums {n : Nat} {r : PassRegs} {B : List Byte} (hn : B.length ≤ n) (h : Reduced r.sums) :
    (bulkPasses n r B).1.sums = (wordPairs B).foldl sumStep r.sums := by
  induction n generalizing r B with
  | zero =>
    obtain rfl : B = [] := List.length_eq_zero_iff.1 (by omega)
    rfl
  | succ n ih =>
    rw [bulkPasses]
    by_cases hlen : B.length < 2
    · rw [if_pos hlen, wordPairs_of_lt hlen, List.foldl_nil]
    · rw [if_neg hlen]
      obtain ⟨k, hk⟩ : ∃ k, k = min Config.bulkWords (B.length / 2) := ⟨_, rfl⟩
      have hkpos : 0 < k := by simp only [hk, Config.bulkWords]; omega
      have hk360 : k ≤ 360 := by simp only [hk, Config.bulkWords]; omega
      have hkB : 2 * k ≤ B.length := by omega
      have hpass : (passReduce (passWords k r B).1).sums = (wordPairs (B.take (2 * k))).foldl sumStep r.sums := by
        rw [passReduce_sums, (passWords_exact (by omega) (by omega) hk360 hkB).1, ← foldl_sumStep_reduceSums,
          reduceSums_eq h]
      have hsplit : wordPairs B = wordPairs (B.take (2 * k)) ++ wordPairs (B.drop (2 * k)) := by
        rw [← wordPairs_append _ (by rw [List.length_take]; omega), List.take_append_drop]
      simp only [← hk, passWords_rest r hkB]
      rw [ih (by rw [List.length_drop]; omega) (passReduce_reduced _), hpass, hsplit, List.foldl_append]

/-! An update (R104) as one fold. -/

/-- The pending byte, if there is one. -/
def Csa.pending (A : Csa) : List Byte := if A.pendV then [A.pendB] else []

/-- The sums of an accumulator as numbers. -/
def Csa.sums (A : Csa) : Nat × Nat := (A.c0.toNat, A.c1.toNat)

/-- The accumulator with given sums and an unpaired last byte. -/
def Csa.ofSums (p : Nat × Nat) (left : List Byte) : Csa :=
  ⟨BitVec.ofNat 16 p.1, BitVec.ofNat 16 p.2, !left.isEmpty, left.headD 0⟩

theorem Csa.zero_ok : CsaOk Csa.zero := by decide

theorem CsaOk.reduced {A : Csa} (h : CsaOk A) : Reduced A.sums := ⟨h.1, h.2.1⟩

theorem Csa.sums_ofSums {p : Nat × Nat} (left : List Byte) (h : Reduced p) : (Csa.ofSums p left).sums = p := by
  obtain ⟨h0, h1⟩ := h
  simp only [Csa.ofSums, Csa.sums, BitVec.toNat_ofNat]
  ext
  · exact Nat.mod_eq_of_lt (h0.trans (by decide))
  · exact Nat.mod_eq_of_lt (h1.trans (by decide))

theorem Csa.pending_ofSums {p : Nat × Nat} {left : List Byte} (h : left.length < 2) :
    (Csa.ofSums p left).pending = left := by
  match left, h with
  | [], _ => rfl
  | [_], _ => rfl
  | _ :: _ :: _, h => simp at h

/-- The sums and the pending byte are the whole of an accumulator (R21, R23). -/
theorem Csa.ofSums_eq {A : Csa} (hA : CsaOk A) : Csa.ofSums A.sums A.pending = A := by
  obtain ⟨c0, c1, pendV, pendB⟩ := A
  cases pendV with
  | false =>
    obtain rfl : pendB = 0 := hA.2.2 rfl
    simp [Csa.ofSums, Csa.sums, Csa.pending]
  | true => simp [Csa.ofSums, Csa.sums, Csa.pending]

theorem Csa.pending_length_lt (A : Csa) : A.pending.length < 2 := by
  cases h : A.pendV <;> simp [Csa.pending, h]

theorem Csa.ofSums_ok {p : Nat × Nat} (left : List Byte) (h : Reduced p) : CsaOk (Csa.ofSums p left) := by
  have hsums : Reduced (Csa.ofSums p left).sums := by rwa [Csa.sums_ofSums left h]
  refine ⟨hsums.1, hsums.2, fun hnone => ?_⟩
  obtain rfl : left = [] := by simpa [Csa.ofSums] using hnone
  rfl

theorem storeBack_eq_ofSums (r : PassRegs) (left : List Byte) : storeBack r left false 0 = Csa.ofSums r.sums left := by
  cases left <;> rfl

/-- The bulk passes stored back, with nothing pending before them. -/
theorem storeBack_bulkPasses {n : Nat} {r : PassRegs} {B : List Byte} (hn : B.length ≤ n) (h : Reduced r.sums) :
    storeBack (bulkPasses n r B).1 (bulkPasses n r B).2 false 0
      = Csa.ofSums ((wordPairs B).foldl sumStep r.sums) (oddTail B) := by
  rw [storeBack_eq_ofSums, bulkPasses_sums hn h, bulkPasses_rest r hn, oddTail]

/-- The word of the pending byte and the first new one, a pass of its own (D9), is one STEP. -/
theorem passReduce_passAdd_sums {r : PassRegs} (w : Word16) (h : Reduced r.sums) :
    (passReduce (passAdd r w)).sums = sumStep r.sums w.toNat := by
  have hw := w.isLt
  have hfold := foldl_sumStep_reduceSums [w.toNat] r.sums
  rw [reduceSums_eq h] at hfold
  obtain ⟨h0, h1⟩ : r.a0.toNat < 65535 ∧ r.a1.toNat < 65535 := h
  obtain ⟨e0, e1⟩ := passAdd_toNat (r := r) (w := w) (by omega) (by omega)
  have hadd : (passAdd r w).sums = exactStep r.sums w.toNat := Prod.ext e0 e1
  rw [passReduce_sums, hadd]
  exact hfold.symm

/-- The pass registers as an update loads them from the stored sums (R104). -/
def Csa.load (A : Csa) : PassRegs := ⟨A.c0.setWidth 32, A.c1.setWidth 32⟩

theorem Csa.sums_load (A : Csa) : A.load.sums = A.sums :=
  Prod.ext (BitVec.toNat_setWidth_of_le (b := A.c0) (by decide)) (BitVec.toNat_setWidth_of_le (b := A.c1) (by decide))

/-- CSA_UPDATE folds STEP over the words of the pending byte and the new bytes, and keeps an unpaired last byte (R106). -/
theorem csaUpdate_eq {A : Csa} (hA : CsaOk A) (B : List Byte) :
    csaUpdate A B = Csa.ofSums ((wordPairs (A.pending ++ B)).foldl sumStep A.sums) (oddTail (A.pending ++ B)) := by
  match B with
  | [] =>
    have hpend := A.pending_length_lt
    rw [List.append_nil, wordPairs_of_lt hpend, oddTail_of_lt hpend, List.foldl_nil, Csa.ofSums_eq hA, csaUpdate_empty]
  | b :: bs =>
    have hload : Reduced A.load.sums := A.sums_load ▸ hA.reduced
    cases hp : A.pendV with
    | false =>
      have hbulk := storeBack_bulkPasses (B := b :: bs) le_rfl hload
      rw [A.sums_load] at hbulk
      simpa [csaUpdate, Csa.load, Csa.pending, hp, hA.2.2 hp] using hbulk
    | true =>
      have hfirst := passReduce_passAdd_sums (word A.pendB b) hload
      have hbulk := storeBack_bulkPasses (B := bs) le_rfl (passReduce_reduced (passAdd A.load (word A.pendB b)))
      have htail : oddTail ([A.pendB, b] ++ bs) = oddTail bs := oddTail_append bs (by simp)
      rw [hfirst, A.sums_load, word_toNat, ← htail] at hbulk
      simpa [csaUpdate, Csa.load, Csa.pending, hp, wordPairs] using hbulk

/-- CSA_UPDATE keeps the sums reduced and the pending byte 0 when none is pending (R22, R23). -/
theorem csaUpdate_ok {A : Csa} (hA : CsaOk A) (B : List Byte) : CsaOk (csaUpdate A B) := by
  rw [csaUpdate_eq hA]
  exact Csa.ofSums_ok _ (foldl_sumStep_reduced _ hA.reduced)

/-- Updates compose: a stream may be cut anywhere (R109). -/
theorem csaUpdate_append {A : Csa} (hA : CsaOk A) (B C : List Byte) :
    csaUpdate A (B ++ C) = csaUpdate (csaUpdate A B) C := by
  have hsums : (csaUpdate A B).sums = (wordPairs (A.pending ++ B)).foldl sumStep A.sums := by
    rw [csaUpdate_eq hA, Csa.sums_ofSums _ (foldl_sumStep_reduced _ hA.reduced)]
  have hpending : (csaUpdate A B).pending = oddTail (A.pending ++ B) := by
    rw [csaUpdate_eq hA, Csa.pending_ofSums (oddTail_length_lt _)]
  obtain ⟨E, heven, hsplit, hwords⟩ := exists_even_append_oddTail (A.pending ++ B)
  have hcut : A.pending ++ (B ++ C) = E ++ (oddTail (A.pending ++ B) ++ C) := by
    rw [← List.append_assoc, ← List.append_assoc, ← hsplit]
  rw [csaUpdate_eq hA, csaUpdate_eq (csaUpdate_ok hA B), hsums, hpending, hwords, ← List.foldl_append, hcut,
    wordPairs_append _ heven, oddTail_append _ heven]

/-! The checksum (R110). -/

/-- A combined checksum is its low half and 65536 times its high half. -/
theorem combine_toNat {x y : Nat} (hx : x < 65536) (hy : y < 65536) :
    (BitVec.ofNat 32 x ||| (BitVec.ofNat 32 y <<< 16)).toNat = x + 65536 * y := by
  have hshift : (BitVec.ofNat 32 y <<< 16).toNat = y <<< 16 := by
    simp only [BitVec.toNat_shiftLeft, BitVec.toNat_ofNat, Nat.shiftLeft_eq]
    omega
  rw [BitVec.toNat_or, hshift, BitVec.toNat_ofNat, Nat.mod_eq_of_lt (by omega), Nat.lor_comm,
    ← Nat.shiftLeft_add_eq_or_of_lt hx, Nat.shiftLeft_eq]
  omega

/-- CSA_GET is two reduced halves (R101(c), R110). -/
theorem csaGet_toNat {A : Csa} (hA : CsaOk A) :
    ∃ x y, x < 65535 ∧ y < 65535 ∧ (csaGet A).toNat = x + 65536 * y := by
  obtain ⟨h0, h1, -⟩ := hA
  have hmod (n : Nat) : n % Config.modulus < 65535 := Nat.mod_lt n (by decide)
  cases hp : A.pendV with
  | false => exact ⟨_, _, h0, h1, by rw [csaGet_of_not_pending hp, combine_toNat (by omega) (by omega)]⟩
  | true =>
    have hx := hmod (A.c0.toNat + A.pendB.toNat)
    have hy := hmod (A.c1.toNat + (A.c0.toNat + A.pendB.toNat) % Config.modulus)
    exact ⟨_, _, hx, hy, by simp only [csaGet, hp, if_true, combine_toNat (hx.trans (by decide)) (hy.trans (by decide))]⟩

/-- Settles O17: an update is a fold of STEP, which reduces, and the checksum is two reduced halves. -/
theorem sumsStayReduced : Obligations.SumsStayReduced := by
  intro A B hA
  obtain ⟨x, y, hx, hy, hget⟩ := csaGet_toNat hA
  exact ⟨csaUpdate_ok hA B, Csa.zero_ok, by omega, by omega⟩

end Sys2Proof.Machine
end

section
/-! The run of FP.PROCESS without its round counter (R137 to R141): what one round can do, the run as one equation per kind
of round, and an induction over its rounds. -/

namespace Sys2Proof.Machine

/-! What a round does, by state. -/

theorem take_min_length (B : List Byte) (n : Nat) : B.take (min B.length n) = B.take n := by
  rw [Nat.min_comm, ← List.take_eq_take_min]

/-- A Header step stores the bytes up to the header's end (R156). -/
theorem headerStored_eq (P : Params) (B : List Byte) (s : State) :
    headerStored P B s =
      { s with
        scratch := s.scratch.writeAll s.cnt (B.take (P.hdrLen - s.cnt))
        csp := feedCovered P s.cnt (B.take (P.hdrLen - s.cnt)) s.csp
        cnt := s.cnt + (B.take (P.hdrLen - s.cnt)).length } := by
  simp only [headerStored, take_min_length, List.length_take, Nat.min_comm]

/-- The BODY events of a slice of the body: one, or none for no byte (R160). -/
def bodyEvents (D : List Byte) : List Event := if D = [] then [] else [.body D]

/-- A Data step streams the bytes up to the body's end (R160). -/
theorem dataStreamed_eq (P : Params) (B : List Byte) (s : State) :
    dataStreamed P B s =
      { s with
        csp := csaUpdate s.csp (B.take (s.bodyLen P - s.cnt))
        cnt := s.cnt + (B.take (s.bodyLen P - s.cnt)).length
        out := s.out ++ (bodyEvents (B.take (s.bodyLen P - s.cnt))).map .event } := by
  have hlen : min B.length (s.bodyLen P - s.cnt) = (B.take (s.bodyLen P - s.cnt)).length := by
    rw [List.length_take, Nat.min_comm]
  simp only [dataStreamed, take_min_length]
  rw [hlen]
  cases B.take (s.bodyLen P - s.cnt) with
  | nil => simp [bodyEvents]
  | cons b D => simp [bodyEvents, emit]

@[simp] theorem dataStreamed_st (P : Params) (B : List Byte) (s : State) : (dataStreamed P B s).st = s.st := by
  rw [dataStreamed_eq]

/-- Header completion with an answer (R157): BEGIN, the answer taken, the count cleared, the state by acceptance. -/
def headerDone (P : Params) (a : Answer) (as : List Answer) (s : State) : State :=
  { s with
    answers := as, cnt := 0, out := s.out ++ [.event (.beginFrame (s.header P))]
    st := if accepted P (s.header P) a then .data else .throwAway }

section
variable {P : Params} {B : List Byte} {s : State}

theorem fpRound_intron (hst : s.st = .intron) : fpRound P B s = .ok (stepIntron P B s) := by
  simp only [fpRound, hst]

theorem fpRound_header_more (hst : s.st = .header) (hlen : s.cnt + B.length < P.hdrLen) :
    fpRound P B s = .ok (.needMore [] (headerStored P B s)) := by
  simp only [fpRound, hst, stepHeader_eq]
  rw [if_pos (by omega), List.drop_eq_nil_of_le (by omega)]

theorem fpRound_header_stuck (hst : s.st = .header) (hlen : P.hdrLen ≤ s.cnt + B.length) (ha : s.answers = []) :
    fpRound P B s = .error .beginUnanswered := by
  have ha' : (headerStored P B s).answers = [] := ha
  simp only [fpRound, hst, stepHeader_eq, completeHeader_eq, ha']
  rw [if_neg (by omega)]

theorem fpRound_header_done {a : Answer} {as : List Answer} (hst : s.st = .header) (hlen : P.hdrLen ≤ s.cnt + B.length)
    (ha : s.answers = a :: as) :
    fpRound P B s = .ok (.advanced (B.drop (P.hdrLen - s.cnt)) (headerDone P a as (headerStored P B s))) := by
  have ha' : (headerStored P B s).answers = a :: as := ha
  simp only [fpRound, hst, stepHeader_eq, completeHeader_eq, ha']
  rw [if_neg (by omega), show min B.length (P.hdrLen - s.cnt) = P.hdrLen - s.cnt by omega]
  rfl

theorem fpRound_data_more (hst : s.st = .data) (hlen : s.cnt + B.length < s.bodyLen P) :
    fpRound P B s = .ok (.needMore [] (dataStreamed P B s)) := by
  simp only [fpRound, hst, stepData_eq]
  rw [if_pos (by omega), List.drop_eq_nil_of_le (by omega)]

theorem fpRound_data_done (hst : s.st = .data) (hlen : s.bodyLen P ≤ s.cnt + B.length) :
    fpRound P B s = .ok (.advanced (B.drop (s.bodyLen P - s.cnt)) (completeBody P (dataStreamed P B s))) := by
  simp only [fpRound, hst, stepData_eq]
  rw [if_neg (by omega), show min B.length (s.bodyLen P - s.cnt) = s.bodyLen P - s.cnt by omega]

theorem fpRound_throw_more (hst : s.st = .throwAway) (hlen : s.cnt + B.length < s.bodyLen P) :
    fpRound P B s = .ok (.needMore [] { s with cnt := s.cnt + B.length }) := by
  simp only [fpRound, hst, stepThrow_eq, if_pos hlen]

theorem fpRound_throw_done (hst : s.st = .throwAway) (hlen : s.bodyLen P ≤ s.cnt + B.length) :
    fpRound P B s = .ok (.advanced (B.drop (s.bodyLen P - s.cnt)) (completeDrain s)) := by
  simp only [fpRound, hst, stepThrow_eq]
  rw [if_neg (by omega)]

end

/-- What one round can do: the outcome of `fpRound P B s`, with the reason for it (R138, R151). -/
inductive RoundCase (P : Params) (B : List Byte) (s : State) : Except Fault Round → Prop
  | searching (k : Nat) : s.st = .intron → stepIntron P B s = .needMore [] { s with mpos := k } →
      RoundCase P B s (.ok (.needMore [] { s with mpos := k }))
  | frameFound (u : List Byte) (b : Byte) (rest : List Byte) : s.st = .intron → B = u ++ b :: rest →
      stepIntron P B s = .advanced rest (startFrame s) → RoundCase P B s (.ok (.advanced rest (startFrame s)))
  | headerMore : s.st = .header → s.cnt + B.length < P.hdrLen →
      RoundCase P B s (.ok (.needMore [] (headerStored P B s)))
  | headerStuck : s.st = .header → P.hdrLen ≤ s.cnt + B.length → s.answers = [] →
      RoundCase P B s (.error .beginUnanswered)
  | headerDone (a : Answer) (as : List Answer) : s.st = .header → P.hdrLen ≤ s.cnt + B.length → s.answers = a :: as →
      RoundCase P B s (.ok (.advanced (B.drop (P.hdrLen - s.cnt)) (headerDone P a as (headerStored P B s))))
  | dataMore : s.st = .data → s.cnt + B.length < s.bodyLen P →
      RoundCase P B s (.ok (.needMore [] (dataStreamed P B s)))
  | dataDone : s.st = .data → s.bodyLen P ≤ s.cnt + B.length →
      RoundCase P B s (.ok (.advanced (B.drop (s.bodyLen P - s.cnt)) (completeBody P (dataStreamed P B s))))
  | drainMore : s.st = .throwAway → s.cnt + B.length < s.bodyLen P →
      RoundCase P B s (.ok (.needMore [] { s with cnt := s.cnt + B.length }))
  | drainDone : s.st = .throwAway → s.bodyLen P ≤ s.cnt + B.length →
      RoundCase P B s (.ok (.advanced (B.drop (s.bodyLen P - s.cnt)) (completeDrain s)))

theorem fpRound_case (P : Params) (B : List Byte) (s : State) : RoundCase P B s (fpRound P B s) := by
  cases hst : s.st with
  | intron =>
    rw [fpRound_intron hst]
    rcases stepIntron_cases P B s with ⟨k, h⟩ | ⟨u, b, rest, hB, h⟩
    · rw [h]; exact .searching k hst h
    · rw [h]; exact .frameFound u b rest hst hB h
  | header =>
    rcases lt_or_ge (s.cnt + B.length) P.hdrLen with hlen | hlen
    · rw [fpRound_header_more hst hlen]; exact .headerMore hst hlen
    · cases ha : s.answers with
      | nil => rw [fpRound_header_stuck hst hlen ha]; exact .headerStuck hst hlen ha
      | cons a as => rw [fpRound_header_done hst hlen ha]; exact .headerDone a as hst hlen ha
  | data =>
    rcases lt_or_ge (s.cnt + B.length) (s.bodyLen P) with hlen | hlen
    · rw [fpRound_data_more hst hlen]; exact .dataMore hst hlen
    · rw [fpRound_data_done hst hlen]; exact .dataDone hst hlen
  | throwAway =>
    rcases lt_or_ge (s.cnt + B.length) (s.bodyLen P) with hlen | hlen
    · rw [fpRound_throw_more hst hlen]; exact .drainMore hst hlen
    · rw [fpRound_throw_done hst hlen]; exact .drainDone hst hlen

theorem roundCase_of_eq {P : Params} {B : List Byte} {s : State} {r : Except Fault Round} (h : fpRound P B s = r) :
    RoundCase P B s r := h ▸ fpRound_case P B s

/-! The run. -/

/-- How far a state of the parser is from the next search for a pattern, in rounds. -/
def FsmState.toSearch : FsmState → Nat
  | .intron => 0
  | .data | .throwAway => 1
  | .header => 2

/-- A bound on the rounds that can still advance: three for each byte and those of the frame begun (R139). -/
def roundsLeft (B : List Byte) (s : State) : Nat := 3 * B.length + s.st.toSearch

/-- A round that advances brings the run nearer to its end. -/
theorem roundsLeft_lt {P : Params} {B rest : List Byte} {s t : State} (h : fpRound P B s = .ok (.advanced rest t)) :
    roundsLeft rest t < roundsLeft B s := by
  have hdrop (n : Nat) : (B.drop n).length ≤ B.length := by
    rw [List.length_drop]
    omega
  simp only [roundsLeft]
  cases roundCase_of_eq h with
  | frameFound u b _ hst hB =>
    simp only [hst, hB, startFrame_st, FsmState.toSearch, List.length_append, List.length_cons]
    omega
  | headerDone a as hst =>
    have hnext : (headerDone P a as (headerStored P B s)).st.toSearch = 1 := by
      simp only [headerDone]
      split <;> rfl
    have := hdrop (P.hdrLen - s.cnt)
    rw [hnext, hst, show FsmState.header.toSearch = 2 from rfl]
    omega
  | dataDone hst =>
    have := hdrop (s.bodyLen P - s.cnt)
    simp only [hst, completeBody_st, FsmState.toSearch]
    omega
  | drainDone hst =>
    have := hdrop (s.bodyLen P - s.cnt)
    simp only [hst, completeDrain_st, FsmState.toSearch]
    omega

/-- Rounds beyond `roundsLeft` are not used. -/
theorem fpLoop_congr {P : Params} {n m : Nat} {B : List Byte} {s : State} (hn : roundsLeft B s < n)
    (hm : roundsLeft B s < m) : fpLoop P n B s = fpLoop P m B s := by
  induction n generalizing m B s with
  | zero => omega
  | succ n ih =>
    obtain ⟨m, rfl⟩ : ∃ k, m = k + 1 := ⟨m - 1, by omega⟩
    rw [fpLoop, fpLoop]
    cases hr : fpRound P B s with
    | error f => rfl
    | ok r =>
      cases r with
      | needMore rest t => rfl
      | advanced rest t =>
        have := roundsLeft_lt hr
        exact ih (by omega) (by omega)

/-- The state an FP.PROCESS payload leaves, before the response, or its stop. -/
def fpFinal (P : Params) (B : List Byte) (s : State) : Except Fault State := (fpRun P B s).map Prod.snd

section
variable {P : Params} {B rest : List Byte} {s t : State}

theorem fpFinal_of_error {f : Fault} (h : fpRound P B s = .error f) : fpFinal P B s = .error f := by
  simp only [fpFinal, fpRun, fpLoop, h]
  rfl

theorem fpFinal_of_needMore (h : fpRound P B s = .ok (.needMore rest t)) : fpFinal P B s = .ok t := by
  simp only [fpFinal, fpRun, fpLoop, h]
  rfl

theorem fpFinal_of_advanced (h : fpRound P B s = .ok (.advanced rest t)) : fpFinal P B s = fpFinal P rest t := by
  have hlt := roundsLeft_lt h
  have hB : roundsLeft B s ≤ 3 * B.length + 2 := by
    cases hst : s.st <;> simp [roundsLeft, hst, FsmState.toSearch]
  have hrest : roundsLeft rest t ≤ 3 * rest.length + 2 := by
    cases hst : t.st <;> simp [roundsLeft, hst, FsmState.toSearch]
  simp only [fpFinal, fpRun]
  rw [fpLoop, h]
  exact congrArg _ (fpLoop_congr (by omega) (by omega))

/-- Two runs that begin with the same round are the same. -/
theorem fpFinal_congr {C : List Byte} {u : State} (h : fpRound P B s = fpRound P C u) : fpFinal P B s = fpFinal P C u := by
  cases hr : fpRound P C u with
  | error f => rw [fpFinal_of_error hr, fpFinal_of_error (h.trans hr)]
  | ok r =>
    cases r with
    | needMore rest t => rw [fpFinal_of_needMore hr, fpFinal_of_needMore (h.trans hr)]
    | advanced rest t => rw [fpFinal_of_advanced hr, fpFinal_of_advanced (h.trans hr)]

end

/-- Induction over the rounds of a run. -/
theorem fpRound_induction (P : Params) {motive : List Byte → State → Prop}
    (stop : ∀ B s f, fpRound P B s = .error f → motive B s)
    (needMore : ∀ B s rest t, fpRound P B s = .ok (.needMore rest t) → motive B s)
    (advanced : ∀ B s rest t, fpRound P B s = .ok (.advanced rest t) → motive rest t → motive B s)
    (B : List Byte) (s : State) : motive B s := by
  induction hn : roundsLeft B s using Nat.strong_induction_on generalizing B s with
  | _ n ih =>
    cases hr : fpRound P B s with
    | error f => exact stop B s f hr
    | ok r =>
      cases r with
      | needMore rest t => exact needMore B s rest t hr
      | advanced rest t => exact advanced B s rest t hr (ih _ (hn ▸ roundsLeft_lt hr) rest t rfl)

/-- A run leaves no byte (R141). -/
theorem fpRun_eq_fpFinal (P : Params) (B : List Byte) (s : State) : fpRun P B s = (fpFinal P B s).map fun t => ([], t) := by
  simp only [fpFinal, fpRun]
  rcases fpLoop_frame P (3 * B.length + 6) B s with h | h | ⟨t, h, -⟩ <;> rw [h] <;> rfl

/-- A run keeps the parser's frame (R36, R37, R183). -/
theorem fpFinal_frame {P : Params} {B : List Byte} {s t : State} (h : fpFinal P B s = .ok t) : ParserFrame s t := by
  rcases fpLoop_frame P (3 * B.length + 6) B s with h' | h' | ⟨u, h', hf⟩ <;> simp only [fpFinal, fpRun, h'] at h
  · cases h
  · cases h
  · cases h
    exact hf

/-- An FP.PROCESS that ends answers OK in the state its run leaves (R137). -/
theorem fpProcess_eq_next {P : Params} {B : List Byte} {s u : State} (h : fpProcess P B s = .next u) :
    ∃ t, fpFinal P B s = .ok t ∧ u = answerOk t := by
  simp only [fpProcess, fpRun_eq_fpFinal] at h
  cases hf : fpFinal P B s with
  | error f => simp [hf, Except.map] at h
  | ok t =>
    simp only [hf, Except.map, Host.Outcome.next.injEq] at h
    exact ⟨t, rfl, h.symm⟩

theorem fpCalls_cons (P : Params) (B : List Byte) (Bs : List (List Byte)) (s : State) :
    fpCalls P (B :: Bs) s = (fpFinal P B s).bind (fpCalls P Bs) := by
  rw [fpCalls, fpRun_eq_fpFinal]
  cases fpFinal P B s <;> rfl

/-! The validity bit (R32, R249). -/

theorem lastComplete_append (es es' : List Event) : lastComplete (es ++ es') = (lastComplete es').or (lastComplete es) := by
  induction es with
  | nil => simp [lastComplete]
  | cons e es ih => cases e <;> simp [lastComplete, ih]

/-- `valid` follows the events: it is the bit of the last COMPLETE given out, or as before. -/
def ValidFollows (s t : State) : Prop :=
  ∃ evs : List Event, t.out = s.out ++ evs.map .event ∧ t.valid = (lastComplete evs).getD s.valid

theorem ValidFollows.trans {s t u : State} (h : ValidFollows s t) (h' : ValidFollows t u) : ValidFollows s u := by
  obtain ⟨es, hout, hvalid⟩ := h
  obtain ⟨es', hout', hvalid'⟩ := h'
  refine ⟨es ++ es', by rw [hout', hout, List.map_append, List.append_assoc], ?_⟩
  rw [hvalid', hvalid, lastComplete_append]
  cases lastComplete es' <;> rfl

theorem lastComplete_bodyEvents (D : List Byte) : lastComplete (bodyEvents D) = none := by
  cases D <;> rfl

theorem dataStreamed_validFollows (P : Params) (B : List Byte) (s : State) : ValidFollows s (dataStreamed P B s) := by
  rw [dataStreamed_eq]
  exact ⟨_, rfl, by rw [lastComplete_bodyEvents]; rfl⟩

theorem completeBody_validFollows (P : Params) (s : State) : ValidFollows s (completeBody P s) :=
  ⟨[.complete _, .typeHook _ _], completeBody_out P s, rfl⟩

/-- The state a round leaves. -/
def Round.state : Round → State
  | .needMore _ t => t
  | .advanced _ t => t

theorem fpRound_validFollows {P : Params} {B : List Byte} {s : State} {r : Round} (h : fpRound P B s = .ok r) :
    ValidFollows s r.state := by
  cases roundCase_of_eq h with
  | searching | headerMore | drainMore => exact ⟨[], by simp [Round.state, headerStored], rfl⟩
  | frameFound => exact ⟨[.resetFrame], rfl, rfl⟩
  | headerDone => exact ⟨[.beginFrame _], rfl, rfl⟩
  | dataMore => exact dataStreamed_validFollows P B s
  | dataDone => exact (dataStreamed_validFollows P B s).trans (completeBody_validFollows P _)
  | drainDone => exact ⟨[.invalid], rfl, rfl⟩

theorem fpFinal_validFollows (P : Params) (B : List Byte) (s : State) :
    ∀ t, fpFinal P B s = .ok t → ValidFollows s t := by
  induction B, s using fpRound_induction P with
  | stop B s f hr =>
    intro t h
    rw [fpFinal_of_error hr] at h
    cases h
  | needMore B s rest u hr =>
    intro t h
    rw [fpFinal_of_needMore hr] at h
    cases h
    exact fpRound_validFollows hr
  | advanced B s rest u hr ih =>
    intro t h
    rw [fpFinal_of_advanced hr] at h
    exact (fpRound_validFollows hr).trans (ih t h)

/-- Settles O58: every round lets `valid` follow its events, and the run is a chain of rounds. -/
theorem validIsLastCompletion : Obligations.ValidIsLastCompletion := by
  intro P B s u h
  obtain ⟨t, hfinal, rfl⟩ := fpProcess_eq_next h
  obtain ⟨evs, hout, hvalid⟩ := fpFinal_validFollows P B s t hfinal
  exact ⟨evs, by rw [answerOk_out, hout], hvalid⟩

end Sys2Proof.Machine
end

section
/-! Resets and units: the four resets against the reset values (R43, R231), and what each command leaves alone (R25, R31,
R37). -/

namespace Sys2Proof.Machine

/-- The reset input comes before everything else (R230). -/
theorem step_of_rst {s : State} (h : s.rst = true) : step s = .next (hardReset Config.params s) := if_pos h

theorem fpSetIntron_of_length {P : Params} {B : List Byte} (h : B.length = P.intronLen) (s : State) :
    fpSetIntron P B s = answerOk (parserInit { s with intron := B }) := if_pos h

theorem fpSetIntron_of_length_ne {P : Params} {B : List Byte} (h : B.length ≠ P.intronLen) (s : State) :
    fpSetIntron P B s = answerIllegal s := if_neg h

/-- Settles O11: each reset is one record update of the fields of `State.reset`. -/
theorem resetsCompared : Obligations.ResetsCompared := by
  refine ⟨fun s hrst => ?hardware, fun s => ?fpReset, fun s B hB => ?fpSetIntron, fun s => ?csReset⟩
  case hardware =>
    exact ⟨_, step_of_rst hrst, rfl, rfl, rfl, rfl, rfl, rfl, rfl, Memory.read_nil, rfl, rfl⟩
  case fpReset => exact ⟨_, rfl, rfl⟩
  case fpSetIntron => exact ⟨_, congrArg Host.Outcome.next (fpSetIntron_of_length hB s), rfl⟩
  case csReset => exact ⟨_, rfl, rfl⟩

/-! What a command leaves alone. -/

/-- FP.PROCESS leaves CSH and the pattern as they are (R25, R31). -/
theorem fpProcess_keeps {P : Params} {B : List Byte} {s t : State} (h : fpProcess P B s = .next t) :
    t.csh = s.csh ∧ t.intron = s.intron := by
  obtain ⟨u, hu, rfl⟩ := fpProcess_eq_next h
  obtain ⟨-, -, -, hcsh, hintron, -, -⟩ := fpFinal_frame hu
  exact ⟨hcsh, hintron⟩

theorem fpSetIntron_csh (P : Params) (B : List Byte) (s : State) : (fpSetIntron P B s).csh = s.csh := by
  by_cases hB : B.length = P.intronLen
  · rw [fpSetIntron_of_length hB]
    rfl
  · rw [fpSetIntron_of_length_ne hB]
    rfl

/-- A CS command changes CSH and the output alone (R37). -/
theorem exec_cs_keeps {i : Instr} {s t : State} (h : exec i s = .next t)
    (hi : i ∈ [Instr.csReset, .csGet] ∨ ∃ B, i = .csUpdate B) : { t with csh := s.csh, out := s.out } = s := by
  cases i with
  | csReset | csUpdate | csGet =>
    cases h
    rfl
  | fpReset | fpSetIntron | fpProcess | fpStatus => simp at hi

/-- An FP command leaves CSH as it is (R25). -/
theorem exec_fp_keeps_csh {i : Instr} {s t : State} (h : exec i s = .next t)
    (hi : i ∈ [Instr.fpReset, .fpStatus] ∨ ∃ B, i = .fpSetIntron B ∨ i = .fpProcess B) : t.csh = s.csh := by
  cases i with
  | csReset | csUpdate | csGet => simp at hi
  | fpReset | fpStatus =>
    cases h
    rfl
  | fpSetIntron B =>
    cases h
    exact fpSetIntron_csh _ B s
  | fpProcess B => exact (fpProcess_keeps h).1

/-- Every command but FP.SETINTRON leaves the pattern as it is (R31). -/
theorem exec_keeps_intron {i : Instr} {s t : State} (h : exec i s = .next t) (hi : ∀ B, i ≠ .fpSetIntron B) :
    t.intron = s.intron := by
  cases i with
  | csReset | csUpdate | csGet | fpReset | fpStatus =>
    cases h
    rfl
  | fpSetIntron B => exact absurd rfl (hi B)
  | fpProcess B => exact (fpProcess_keeps h).2

/-- Settles O56, one frame lemma for each unit and one for the pattern. -/
theorem unitsKeepToTheirState : Obligations.UnitsKeepToTheirState := fun _ _ _ h =>
  ⟨exec_cs_keeps h, exec_fp_keeps_csh h, exec_keeps_intron h⟩

end Sys2Proof.Machine
end

section
/-! The invariant of the state between commands (R42, R142): it holds at reset and every step keeps it. Inside a run of
FP.PROCESS a weaker form holds, since a state just entered may have its count complete (R163). -/

namespace Sys2Proof.Machine

/-! The scratch buffer and CSP in a Header step. -/

theorem writeAll_wf {m : Memory} (hm : m.wf) (a : Nat) (bs : List Byte) : (m.writeAll a bs).wf := by
  induction bs generalizing m a with
  | nil => exact hm
  | cons b bs ih => exact ih (Memory.write_wf a b hm) (a + 1)

theorem below_mono {m : Memory} {n k : Nat} (hm : m.below n) (h : n ≤ k) : m.below k :=
  fun c hc => (hm c hc).trans_le h

theorem writeAll_below {m : Memory} {n a : Nat} {bs : List Byte} (hm : m.below n) (h : a + bs.length ≤ n) :
    (m.writeAll a bs).below n := by
  induction bs generalizing m a with
  | nil => exact hm
  | cons b bs ih =>
    simp only [List.length_cons] at h
    exact ih (Memory.write_below b hm (by omega)) (by omega)

theorem feedCovered_ok (P : Params) (a : Nat) (bs : List Byte) {A : Csa} (hA : CsaOk A) : CsaOk (feedCovered P a bs A) := by
  rw [feedCovered]
  induction covered P a bs generalizing A with
  | nil => exact hA
  | cons b cs ih => exact ih (csaUpdate_ok hA [b])

/-! The invariant inside a run. -/

/-- The invariant between two rounds of a run: as between commands, but a body or a drain may already be complete. -/
structure MidRun (P : Params) (s : State) : Prop where
  csh : CsaOk s.csh
  csp : CsaOk s.csp
  intron : s.intron.length = P.intronLen
  scratch : ScratchOk P s.scratch
  searching : s.st = .intron → s.mpos < P.intronLen ∧ s.cnt = 0
  header : s.st = .header → s.mpos = 0 ∧ s.cnt < P.hdrLen ∧ s.scratch.below s.cnt
  data : s.st = .data → s.mpos = 0 ∧ s.cnt ≤ s.bodyLen P ∧ s.tag P ∈ P.types
    ∧ P.lenValid (s.tag P) (P.hdrBlen (s.header P)) = true
  drain : s.st = .throwAway → s.mpos = 0 ∧ s.cnt ≤ s.bodyLen P

theorem Inv.midRun {P : Params} {s : State} (h : Inv P s) : MidRun P s := by
  obtain ⟨hcsh, hcsp, hintron, hscratch, hsearch, hheader, hdata, hdrain⟩ := h
  refine ⟨hcsh, hcsp, hintron, hscratch, hsearch, hheader, fun hst => ?_, fun hst => ?_⟩
  · obtain ⟨hmpos, hcnt, hframe⟩ := hdata hst
    exact ⟨hmpos, hcnt.le, hframe⟩
  · obtain ⟨hmpos, hcnt⟩ := hdrain hst
    exact ⟨hmpos, hcnt.le⟩

/-- With the body and the drain still incomplete the run may end. -/
theorem MidRun.inv {P : Params} {s : State} (h : MidRun P s) (hdata : s.st = .data → s.cnt < s.bodyLen P)
    (hdrain : s.st = .throwAway → s.cnt < s.bodyLen P) : Inv P s := by
  refine ⟨h.csh, h.csp, h.intron, h.scratch, h.searching, h.header, fun hst => ?_,
    fun hst => ⟨(h.drain hst).1, hdrain hst⟩⟩
  obtain ⟨hmpos, -, hframe⟩ := h.data hst
  exact ⟨hmpos, hdata hst, hframe⟩

/-- Back in ST_INTRON, with the count cleared, only the accumulators, the pattern and scratch matter. -/
theorem MidRun.of_search {P : Params} {t : State} (hcsh : CsaOk t.csh) (hcsp : CsaOk t.csp)
    (hintron : t.intron.length = P.intronLen) (hscratch : ScratchOk P t.scratch) (hst : t.st = .intron)
    (hmpos : t.mpos < P.intronLen) (hcnt : t.cnt = 0) : MidRun P t := by
  refine ⟨hcsh, hcsp, hintron, hscratch, fun _ => ⟨hmpos, hcnt⟩, ?_, ?_, ?_⟩ <;> simp [hst]

theorem startFrame_midRun {P : Params} {s : State} (h : MidRun P s) : MidRun P (startFrame s) := by
  refine ⟨h.csh, Csa.zero_ok, h.intron, ⟨Memory.wf_nil, by simp⟩, by simp, fun _ => ?_, by simp, by simp⟩
  exact ⟨rfl, Nat.succ_pos _, by simp⟩

/-- A position at which a byte matched is inside the pattern. -/
theorem stepIntron_mpos_lt {P : Params} {B : List Byte} {s : State} {k : Nat} (hlen : s.intron.length = P.intronLen)
    (hmpos : s.mpos < P.intronLen) (h : stepIntron P B s = .needMore [] { s with mpos := k }) : k < P.intronLen := by
  induction B generalizing s with
  | nil =>
    simp only [stepIntron, Round.needMore.injEq, true_and] at h
    have : s.mpos = k := congrArg State.mpos h
    omega
  | cons b bs ih =>
    by_cases hmatch : s.intron[comparePos s b]? = some b
    · obtain ⟨hinside, -⟩ := List.getElem?_eq_some_iff.1 hmatch
      by_cases hfull : comparePos s b + 1 = P.intronLen
      · simp [stepIntron, hmatch, hfull] at h
      · simp only [stepIntron, hmatch, hfull, ↓reduceIte] at h
        exact ih (s := { s with mpos := comparePos s b + 1 }) hlen (by simp only; omega) h
    · simp only [stepIntron, hmatch, ↓reduceIte] at h
      exact ih (s := { s with mpos := 0 }) hlen (intronLen_pos P) h

theorem searched_midRun {P : Params} {B : List Byte} {s : State} {k : Nat} (h : MidRun P s) (hst : s.st = .intron)
    (hstep : stepIntron P B s = .needMore [] { s with mpos := k }) : MidRun P { s with mpos := k } := by
  obtain ⟨hmpos, hcnt⟩ := h.searching hst
  exact .of_search h.csh h.csp h.intron h.scratch hst (stepIntron_mpos_lt h.intron hmpos hstep) hcnt

/-- What storing header bytes keeps (R156). -/
theorem headerStored_ok {P : Params} {s : State} (B : List Byte) (h : MidRun P s) (hst : s.st = .header) :
    CsaOk (headerStored P B s).csp ∧ (headerStored P B s).scratch.wf
      ∧ (headerStored P B s).scratch.below (headerStored P B s).cnt ∧ (headerStored P B s).cnt ≤ P.hdrLen := by
  obtain ⟨-, hcnt, hbelow⟩ := h.header hst
  have hlen : (B.take (P.hdrLen - s.cnt)).length ≤ P.hdrLen - s.cnt := List.length_take_le _ _
  rw [headerStored_eq]
  exact ⟨feedCovered_ok P _ _ h.csp, writeAll_wf h.scratch.1 _ _,
    writeAll_below (below_mono hbelow (Nat.le_add_right _ _)) le_rfl, by simp only; omega⟩

theorem headerStored_midRun {P : Params} {B : List Byte} {s : State} (h : MidRun P s) (hst : s.st = .header)
    (hlen : s.cnt + B.length < P.hdrLen) : MidRun P (headerStored P B s) := by
  obtain ⟨hcsp, hwf, hbelow, hcnt⟩ := headerStored_ok B h hst
  have hst' : (headerStored P B s).st = .header := hst
  have hlt : (headerStored P B s).cnt < P.hdrLen := by
    rw [headerStored_eq]
    simp only [List.length_take]
    omega
  exact ⟨h.csh, hcsp, h.intron, ⟨hwf, below_mono hbelow hcnt⟩, by simp [hst'],
    fun _ => ⟨(h.header hst).1, hlt, hbelow⟩, by simp [hst'], by simp [hst']⟩

/-- An accepted header has a recognised type and a length possible for it (R158). -/
theorem accepted_types {P : Params} {h : List Byte} {a : Answer} (hacc : accepted P h a = true) :
    P.hdrType h ∈ P.types ∧ P.lenValid (P.hdrType h) (P.hdrBlen h) = true := by
  simp only [accepted, Bool.and_eq_true, List.contains_iff_mem] at hacc
  obtain ⟨⟨-, htype⟩, hlen⟩ := hacc
  exact ⟨htype, hlen⟩

theorem headerDone_midRun {P : Params} {B : List Byte} {s : State} (a : Answer) (as : List Answer) (h : MidRun P s)
    (hst : s.st = .header) : MidRun P (headerDone P a as (headerStored P B s)) := by
  obtain ⟨hcsp, hwf, hbelow, hcnt⟩ := headerStored_ok B h hst
  have hmpos : (headerStored P B s).mpos = 0 := (h.header hst).1
  cases hacc : accepted P ((headerStored P B s).header P) a with
  | true =>
    have hst' : (headerDone P a as (headerStored P B s)).st = .data := by simp only [headerDone, hacc, if_true]
    exact ⟨h.csh, hcsp, h.intron, ⟨hwf, below_mono hbelow hcnt⟩, by simp [hst'], by simp [hst'],
      fun _ => ⟨hmpos, Nat.zero_le _, accepted_types hacc⟩, by simp [hst']⟩
  | false =>
    have hst' : (headerDone P a as (headerStored P B s)).st = .throwAway := by simp [headerDone, hacc]
    exact ⟨h.csh, hcsp, h.intron, ⟨hwf, below_mono hbelow hcnt⟩, by simp [hst'], by simp [hst'], by simp [hst'],
      fun _ => ⟨hmpos, Nat.zero_le _⟩⟩

theorem dataStreamed_midRun {P : Params} {s : State} (B : List Byte) (h : MidRun P s) (hst : s.st = .data) :
    MidRun P (dataStreamed P B s) := by
  obtain ⟨hmpos, hcnt, hframe⟩ := h.data hst
  have hlen : (B.take (s.bodyLen P - s.cnt)).length ≤ s.bodyLen P - s.cnt := List.length_take_le _ _
  rw [dataStreamed_eq]
  exact ⟨h.csh, csaUpdate_ok h.csp _, h.intron, h.scratch, by simp [hst], by simp [hst],
    fun _ => ⟨hmpos, by show s.cnt + _ ≤ s.bodyLen P; omega, hframe⟩, by simp [hst]⟩

theorem completeBody_midRun {P : Params} {s : State} (h : MidRun P s) (hst : s.st = .data) :
    MidRun P (completeBody P s) :=
  .of_search h.csh h.csp h.intron h.scratch rfl ((h.data hst).1 ▸ intronLen_pos P) rfl

theorem completeDrain_midRun {P : Params} {s : State} (h : MidRun P s) (hst : s.st = .throwAway) :
    MidRun P (completeDrain s) :=
  .of_search h.csh h.csp h.intron h.scratch rfl ((h.drain hst).1 ▸ intronLen_pos P) rfl

theorem drained_midRun {P : Params} {s : State} {k : Nat} (h : MidRun P s) (hst : s.st = .throwAway)
    (hlen : s.cnt + k < s.bodyLen P) : MidRun P { s with cnt := s.cnt + k } :=
  ⟨h.csh, h.csp, h.intron, h.scratch, by simp [hst], by simp [hst], by simp [hst], fun _ => ⟨(h.drain hst).1, hlen.le⟩⟩

/-! The invariant over rounds, runs, commands and steps. -/

/-- Every round keeps the invariant of a run. -/
theorem fpRound_midRun {P : Params} {B : List Byte} {s : State} {r : Round} (h : MidRun P s) (hr : fpRound P B s = .ok r) :
    MidRun P r.state := by
  cases roundCase_of_eq hr with
  | searching k hst hstep => exact searched_midRun h hst hstep
  | frameFound => exact startFrame_midRun h
  | headerMore hst hlen => exact headerStored_midRun h hst hlen
  | headerDone a as hst => exact headerDone_midRun a as h hst
  | dataMore hst => exact dataStreamed_midRun B h hst
  | dataDone hst => exact completeBody_midRun (dataStreamed_midRun B h hst) ((dataStreamed_st P B s).trans hst)
  | drainMore hst hlen => exact drained_midRun h hst hlen
  | drainDone hst => exact completeDrain_midRun h hst

/-- A round that needs more input leaves its state incomplete, so the run ends at rest (R138, R142). -/
theorem fpRound_needMore_inv {P : Params} {B rest : List Byte} {s t : State} (h : MidRun P s)
    (hr : fpRound P B s = .ok (.needMore rest t)) : Inv P t := by
  have hmid : MidRun P t := fpRound_midRun h hr
  cases roundCase_of_eq hr with
  | searching k hst => exact hmid.inv (by simp [hst]) (by simp [hst])
  | headerMore hst =>
    have hst' : (headerStored P B s).st = .header := hst
    exact hmid.inv (by simp [hst']) (by simp [hst'])
  | dataMore hst hlen =>
    rw [dataStreamed_eq] at hmid ⊢
    refine hmid.inv (fun _ => ?_) (by simp [hst])
    show s.cnt + _ < s.bodyLen P
    rw [List.length_take]
    omega
  | drainMore hst hlen => exact hmid.inv (by simp [hst]) fun _ => hlen

/-- A run that ends, ends at rest (R142). -/
theorem fpFinal_inv {P : Params} (B : List Byte) (s : State) (h : MidRun P s) : ∀ t, fpFinal P B s = .ok t → Inv P t := by
  induction B, s using fpRound_induction P with
  | stop B s f hr =>
    intro t ht
    rw [fpFinal_of_error hr] at ht
    cases ht
  | needMore B s rest u hr =>
    intro t ht
    rw [fpFinal_of_needMore hr] at ht
    cases ht
    exact fpRound_needMore_inv h hr
  | advanced B s rest u hr ih =>
    rw [fpFinal_of_advanced hr]
    exact ih (fpRound_midRun h hr)

theorem fpProcess_inv {P : Params} {B : List Byte} {s t : State} (h : Inv P s) (ht : fpProcess P B s = .next t) :
    Inv P t := by
  obtain ⟨u, hu, rfl⟩ := fpProcess_eq_next ht
  exact fpFinal_inv B s h.midRun u hu

theorem atRest_search {P : Params} {s : State} (hst : s.st = .intron) (hmpos : s.mpos = 0) (hcnt : s.cnt = 0) :
    AtRest P s := by
  refine ⟨fun _ => ⟨hmpos ▸ intronLen_pos P, hcnt⟩, ?_, ?_, ?_⟩ <;> simp [hst]

theorem hardReset_inv (P : Params) (s : State) : Inv P (hardReset P s) :=
  ⟨Csa.zero_ok, Csa.zero_ok, P.intronReset.size_toArray, ⟨Memory.wf_nil, by simp⟩, atRest_search rfl rfl rfl⟩

theorem parserInit_inv {P : Params} {s : State} (hcsh : CsaOk s.csh) (hintron : s.intron.length = P.intronLen) :
    Inv P (parserInit s) :=
  ⟨hcsh, Csa.zero_ok, hintron, ⟨Memory.wf_nil, by simp⟩, atRest_search rfl rfl rfl⟩

/-- Every command that gives a next state keeps the invariant. -/
theorem exec_inv {i : Instr} {s t : State} (h : Inv Config.params s) (ht : exec i s = .next t) : Inv Config.params t := by
  have ⟨hcsh, hcsp, hintron, hscratch, hrest⟩ := h
  cases i with
  | csReset =>
    cases ht
    exact ⟨Csa.zero_ok, hcsp, hintron, hscratch, hrest⟩
  | csUpdate B =>
    cases ht
    exact ⟨csaUpdate_ok hcsh B, hcsp, hintron, hscratch, hrest⟩
  | csGet | fpStatus =>
    cases ht
    exact h
  | fpReset =>
    cases ht
    exact parserInit_inv hcsh hintron
  | fpSetIntron B =>
    cases ht
    by_cases hB : B.length = Config.params.intronLen
    · rw [fpSetIntron_of_length hB]
      exact parserInit_inv (s := { s with intron := B }) hcsh hB
    · rw [fpSetIntron_of_length_ne hB]
      exact h
  | fpProcess B => exact fpProcess_inv h ht

/-- Settles O52: a step resets, waits, runs a command or answers an illegal packet, and each keeps the invariant. -/
theorem everyStepKeepsInvariant : Obligations.EveryStepKeepsInvariant := by
  intro s t h ht
  rcases step_cases s with ⟨-, hs⟩ | ⟨-, -, hs⟩ | ⟨pkt, rest, i, -, -, -, hs⟩ | ⟨pkt, rest, r, -, -, -, hs⟩
  all_goals rw [hs] at ht
  · cases ht
    exact hardReset_inv _ s
  · cases ht
    exact h
  · exact exec_inv (s := { s with cmd := rest }) h ht
  · cases ht
    exact h

/-- Settles O54: the reset state is what hardware reset leaves of it. -/
theorem resetMeetsInvariant : Obligations.ResetMeetsInvariant := hardReset_inv Config.params State.reset

end Sys2Proof.Machine
end

section
/-! However a stream is cut into FP.PROCESS payloads, the parser ends the same (R144). One cut is followed through the round
it falls in: only a body slice is seen to be cut, by its BODY event. -/

namespace Sys2Proof.Machine

/-! The parser does not read what went out: putting other outputs in front commutes with every round. -/

/-- A state with other outputs before its own. -/
def State.prependOut (o : List Output) (s : State) : State := { s with out := o ++ s.out }

def Round.prependOut (o : List Output) : Round → Round
  | .needMore rest s => .needMore rest (s.prependOut o)
  | .advanced rest s => .advanced rest (s.prependOut o)

@[simp] theorem prependOut_cnt (o : List Output) (s : State) : (s.prependOut o).cnt = s.cnt := rfl
@[simp] theorem prependOut_intron (o : List Output) (s : State) : (s.prependOut o).intron = s.intron := rfl
@[simp] theorem bodyLen_prependOut (P : Params) (o : List Output) (s : State) :
    (s.prependOut o).bodyLen P = s.bodyLen P := rfl
@[simp] theorem comparePos_prependOut (o : List Output) (s : State) (b : Byte) :
    comparePos (s.prependOut o) b = comparePos s b := rfl
@[simp] theorem headerStored_prependOut (P : Params) (o : List Output) (B : List Byte) (s : State) :
    headerStored P B (s.prependOut o) = (headerStored P B s).prependOut o := rfl

theorem startFrame_prependOut (o : List Output) (s : State) : startFrame (s.prependOut o) = (startFrame s).prependOut o := by
  simp only [startFrame, emit, State.prependOut, List.append_assoc]

theorem completeDrain_prependOut (o : List Output) (s : State) :
    completeDrain (s.prependOut o) = (completeDrain s).prependOut o := by
  simp only [completeDrain, emit, State.prependOut, List.append_assoc]

theorem completeBody_prependOut (P : Params) (o : List Output) (s : State) :
    completeBody P (s.prependOut o) = (completeBody P s).prependOut o := by
  simp only [completeBody, emit, State.prependOut, List.append_assoc]
  rfl

theorem headerDone_prependOut (P : Params) (o : List Output) (a : Answer) (as : List Answer) (s : State) :
    headerDone P a as (s.prependOut o) = (headerDone P a as s).prependOut o := by
  simp only [headerDone, State.prependOut, List.append_assoc]
  rfl

theorem dataStreamed_prependOut (P : Params) (o : List Output) (B : List Byte) (s : State) :
    dataStreamed P B (s.prependOut o) = (dataStreamed P B s).prependOut o := by
  simp only [dataStreamed_eq, State.prependOut, List.append_assoc]
  rfl

theorem stepIntron_prependOut (P : Params) (o : List Output) (B : List Byte) (s : State) :
    stepIntron P B (s.prependOut o) = (stepIntron P B s).prependOut o := by
  induction B generalizing s with
  | nil => rfl
  | cons b bs ih =>
    by_cases hmatch : s.intron[comparePos s b]? = some b
    · by_cases hfull : comparePos s b + 1 = P.intronLen
      · simp only [stepIntron, comparePos_prependOut, prependOut_intron, hmatch, hfull, ↓reduceIte, startFrame_prependOut]
        rfl
      · simp only [stepIntron, comparePos_prependOut, prependOut_intron, hmatch, hfull, ↓reduceIte]
        exact ih { s with mpos := comparePos s b + 1 }
    · simp only [stepIntron, comparePos_prependOut, prependOut_intron, hmatch, ↓reduceIte]
      exact ih { s with mpos := 0 }

/-- One round of the parser does not see what went out. -/
theorem fpRound_prependOut (P : Params) (o : List Output) (B : List Byte) (s : State) :
    fpRound P B (s.prependOut o) = (fpRound P B s).map (Round.prependOut o) := by
  generalize hr : fpRound P B s = r
  cases roundCase_of_eq hr with
  | searching k hst hstep | frameFound u b rest hst hB hstep =>
    rw [fpRound_intron (s := s.prependOut o) hst, stepIntron_prependOut, hstep]
    rfl
  | headerMore hst hlen => exact fpRound_header_more (s := s.prependOut o) hst hlen
  | headerStuck hst hlen ha => exact fpRound_header_stuck (s := s.prependOut o) hst hlen ha
  | headerDone a as hst hlen ha =>
    rw [fpRound_header_done (s := s.prependOut o) hst hlen ha, headerStored_prependOut, headerDone_prependOut]
    rfl
  | dataMore hst hlen =>
    rw [fpRound_data_more (s := s.prependOut o) hst hlen, dataStreamed_prependOut]
    rfl
  | dataDone hst hlen =>
    rw [fpRound_data_done (s := s.prependOut o) hst hlen, dataStreamed_prependOut, completeBody_prependOut]
    rfl
  | drainMore hst hlen => exact fpRound_throw_more (s := s.prependOut o) hst hlen
  | drainDone hst hlen =>
    rw [fpRound_throw_done (s := s.prependOut o) hst hlen, completeDrain_prependOut]
    rfl

/-- A run does not see what went out. -/
theorem fpFinal_prependOut (P : Params) (o : List Output) (B : List Byte) (s : State) :
    fpFinal P B (s.prependOut o) = (fpFinal P B s).map (State.prependOut o) := by
  have hround (B : List Byte) (s : State) := fpRound_prependOut P o B s
  induction B, s using fpRound_induction P with
  | stop B s f hr =>
    rw [fpFinal_of_error hr, fpFinal_of_error (by rw [hround, hr]; rfl)]
    rfl
  | needMore B s rest t hr =>
    rw [fpFinal_of_needMore hr, fpFinal_of_needMore (by rw [hround, hr]; rfl)]
    rfl
  | advanced B s rest t hr ih => rw [fpFinal_of_advanced hr, fpFinal_of_advanced (by rw [hround, hr]; rfl), ih]

/-! A cut in the payload of a round that does not reach it. -/

/-- A search that has found the pattern leaves the bytes behind it alone. -/
theorem stepIntron_append_advanced {P : Params} {B rest : List Byte} {s t : State} (C : List Byte)
    (h : stepIntron P B s = .advanced rest t) : stepIntron P (B ++ C) s = .advanced (rest ++ C) t := by
  induction B generalizing s with
  | nil => cases h
  | cons b bs ih =>
    rw [List.cons_append]
    by_cases hmatch : s.intron[comparePos s b]? = some b
    · by_cases hfull : comparePos s b + 1 = P.intronLen
      · simp only [stepIntron, hmatch, hfull, ↓reduceIte, Round.advanced.injEq] at h ⊢
        exact ⟨by rw [h.1], h.2⟩
      · simp only [stepIntron, hmatch, hfull, ↓reduceIte] at h ⊢
        exact ih h
    · simp only [stepIntron, hmatch, ↓reduceIte] at h ⊢
      exact ih h

/-- A search that has used up its bytes goes on with the next ones. -/
theorem stepIntron_append_needMore {P : Params} {B rest : List Byte} {s t : State} (C : List Byte)
    (h : stepIntron P B s = .needMore rest t) : stepIntron P (B ++ C) s = stepIntron P C t := by
  induction B generalizing s with
  | nil =>
    cases h
    rfl
  | cons b bs ih =>
    rw [List.cons_append]
    by_cases hmatch : s.intron[comparePos s b]? = some b
    · by_cases hfull : comparePos s b + 1 = P.intronLen
      · simp [stepIntron, hmatch, hfull] at h
      · simp only [stepIntron, hmatch, hfull, ↓reduceIte] at h ⊢
        exact ih h
    · simp only [stepIntron, hmatch, ↓reduceIte] at h ⊢
      exact ih h

theorem headerStored_append_of_le {P : Params} {B : List Byte} {s : State} (C : List Byte)
    (h : P.hdrLen ≤ s.cnt + B.length) : headerStored P (B ++ C) s = headerStored P B s := by
  rw [headerStored_eq, headerStored_eq, List.take_append_of_le_length (by omega)]

theorem dataStreamed_append_of_le {P : Params} {B : List Byte} {s : State} (C : List Byte)
    (h : s.bodyLen P ≤ s.cnt + B.length) : dataStreamed P (B ++ C) s = dataStreamed P B s := by
  rw [dataStreamed_eq, dataStreamed_eq, List.take_append_of_le_length (by omega)]

/-- A round that stops, or advances, does the same with more bytes behind its payload. -/
theorem fpRound_append_error {P : Params} {B : List Byte} {s : State} {f : Fault} (C : List Byte)
    (h : fpRound P B s = .error f) : fpRound P (B ++ C) s = .error f := by
  cases roundCase_of_eq h with
  | headerStuck hst hlen ha => exact fpRound_header_stuck hst (by rw [List.length_append]; omega) ha

theorem fpRound_append_advanced {P : Params} {B rest : List Byte} {s t : State} (C : List Byte)
    (h : fpRound P B s = .ok (.advanced rest t)) : fpRound P (B ++ C) s = .ok (.advanced (rest ++ C) t) := by
  have hlonger : B.length ≤ (B ++ C).length := by
    rw [List.length_append]
    omega
  cases roundCase_of_eq h with
  | frameFound u b _ hst hB hstep => rw [fpRound_intron hst, stepIntron_append_advanced C hstep]
  | headerDone a as hst hlen ha =>
    rw [fpRound_header_done hst (by omega) ha, headerStored_append_of_le C hlen, List.drop_append_of_le_length (by omega)]
  | dataDone hst hlen =>
    rw [fpRound_data_done hst (by omega), dataStreamed_append_of_le C hlen, List.drop_append_of_le_length (by omega)]
  | drainDone hst hlen => rw [fpRound_throw_done hst (by omega), List.drop_append_of_le_length (by omega)]

/-! A cut in the payload of a round that goes on behind it, outside a body. -/

theorem writeAll_append (m : Memory) (a : Nat) (bs cs : List Byte) :
    m.writeAll a (bs ++ cs) = (m.writeAll a bs).writeAll (a + bs.length) cs := by
  induction bs generalizing m a with
  | nil => rfl
  | cons b bs ih =>
    rw [List.cons_append, Memory.writeAll, Memory.writeAll, ih, List.length_cons, Nat.add_right_comm, Nat.add_assoc]

theorem covered_append (P : Params) (a : Nat) (bs cs : List Byte) :
    covered P a (bs ++ cs) = covered P a bs ++ covered P (a + bs.length) cs := by
  induction bs generalizing a with
  | nil => rfl
  | cons b bs ih =>
    have haddr : a + 1 + bs.length = a + (b :: bs).length := by
      rw [List.length_cons]
      omega
    rw [List.cons_append, covered, covered, ih, haddr]
    split <;> rfl

theorem feedCovered_append (P : Params) (a : Nat) (bs cs : List Byte) (A : Csa) :
    feedCovered P a (bs ++ cs) A = feedCovered P (a + bs.length) cs (feedCovered P a bs A) := by
  rw [feedCovered, covered_append, List.foldl_append]
  rfl

/-- The bytes of two payloads up to a bound that the first does not reach. -/
theorem take_append_of_length_le {B : List Byte} {n : Nat} (C : List Byte) (h : B.length ≤ n) :
    (B ++ C).take n = B ++ C.take (n - B.length) := by
  rw [List.take_append, List.take_of_length_le h]

theorem headerStored_append {P : Params} {B : List Byte} {s : State} (C : List Byte)
    (h : s.cnt + B.length < P.hdrLen) : headerStored P (B ++ C) s = headerStored P C (headerStored P B s) := by
  have hbound : P.hdrLen - s.cnt - B.length = P.hdrLen - (s.cnt + B.length) := by omega
  simp only [headerStored_eq]
  rw [take_append_of_length_le C (by omega), List.take_of_length_le (l := B) (by omega), hbound, writeAll_append,
    feedCovered_append, List.length_append, Nat.add_assoc]

/-- Outside a body a round that has used up its bytes goes on with the next ones as if they were one payload. -/
theorem fpRound_append_needMore {P : Params} {B rest : List Byte} {s t : State} (C : List Byte) (hdata : s.st ≠ .data)
    (h : fpRound P B s = .ok (.needMore rest t)) : fpRound P (B ++ C) s = fpRound P C t := by
  cases roundCase_of_eq h with
  | searching k hst hstep =>
    rw [fpRound_intron hst, fpRound_intron (s := { s with mpos := k }) hst, stepIntron_append_needMore C hstep]
  | headerMore hst hlen =>
    have hcnt : (headerStored P B s).cnt = s.cnt + B.length := by
      rw [headerStored_eq, List.take_of_length_le (by omega)]
    rcases lt_or_ge (s.cnt + B.length + C.length) P.hdrLen with hmore | hdone
    · rw [fpRound_header_more hst (by rw [List.length_append]; omega), fpRound_header_more (s := headerStored P B s) hst
        (by omega), headerStored_append C hlen]
    · cases ha : s.answers with
      | nil =>
        rw [fpRound_header_stuck hst (by rw [List.length_append]; omega) ha,
          fpRound_header_stuck (s := headerStored P B s) hst (by omega) ha]
      | cons a as =>
        rw [fpRound_header_done hst (by rw [List.length_append]; omega) ha,
          fpRound_header_done (s := headerStored P B s) hst (by omega) ha, headerStored_append C hlen, hcnt,
          List.drop_append, List.drop_eq_nil_of_le (by omega), List.nil_append, Nat.sub_sub]
  | dataMore hst => exact absurd hst hdata
  | drainMore hst hlen =>
    rcases lt_or_ge (s.cnt + B.length + C.length) (s.bodyLen P) with hmore | hdone
    · rw [fpRound_throw_more hst (by rw [List.length_append]; omega),
        fpRound_throw_more (s := { s with cnt := s.cnt + B.length }) hst hmore, List.length_append, Nat.add_assoc]
    · rw [fpRound_throw_done hst (by rw [List.length_append]; omega),
        fpRound_throw_done (s := { s with cnt := s.cnt + B.length }) hst hdone, List.drop_append,
        List.drop_eq_nil_of_le (by omega), List.nil_append, Nat.sub_sub]
      rfl

/-! Results compared after the outputs they share. -/

theorem joinBodies_cons_congr (e : Event) {es es' : List Event} (h : joinBodies es = joinBodies es') :
    joinBodies (e :: es) = joinBodies (e :: es') := by
  unfold joinBodies
  rw [h]

theorem joinBodies_append_congr (pre : List Event) {es es' : List Event} (h : joinBodies es = joinBodies es') :
    joinBodies (pre ++ es) = joinBodies (pre ++ es') := by
  induction pre with
  | nil => exact h
  | cons e pre ih => exact joinBodies_cons_congr e ih

/-- Two adjacent BODY events are joined (R185). -/
theorem joinBodies_body_body (d d' : List Byte) (es : List Event) :
    joinBodies (.body d :: .body d' :: es) = joinBodies (.body (d ++ d') :: es) := by
  simp only [joinBodies]
  cases joinBodies es with
  | nil => rfl
  | cons e es => cases e <;> simp

/-- A slice of the body cut in two gives the same events once they are joined. -/
theorem joinBodies_bodyEvents_append (d d' : List Byte) (es : List Event) :
    joinBodies (bodyEvents (d ++ d') ++ es) = joinBodies (bodyEvents d ++ bodyEvents d' ++ es) := by
  cases d with
  | nil => rfl
  | cons b d =>
    cases d' with
    | nil => simp [bodyEvents]
    | cons c d' => exact (joinBodies_body_body (b :: d) (c :: d') es).symm

/-- The same stop, or the same registers and after `o` the same events once adjacent BODY events are joined (R144). -/
inductive SameResult (o : List Output) : Except Fault State → Except Fault State → Prop
  | stop (f : Fault) : SameResult o (.error f) (.error f)
  | done (t u : State) (evs evs' : List Event) : SameButOut t u → t.out = o ++ evs.map .event → u.out = o ++ evs'.map .event →
      joinBodies evs = joinBodies evs' → SameResult o (.ok t) (.ok u)

theorem SameResult.trans {o : List Output} {r r' r'' : Except Fault State} (h : SameResult o r r')
    (h' : SameResult o r' r'') : SameResult o r r'' := by
  cases h with
  | stop f => exact h'
  | done t u evs evs' hregs ht hu hjoin =>
    cases h' with
    | done _ v evs'' evs''' hregs' hu' hv hjoin' =>
      have hevents : evs'.map Output.event = evs''.map .event := List.append_cancel_left (hu.symm.trans hu')
      obtain rfl := List.map_injective_iff.2 (fun _ _ => Output.event.inj) hevents
      exact .done t v evs evs''' (hregs.trans hregs') ht hv (hjoin.trans hjoin')

/-- Events both results share before may be counted in. -/
theorem SameResult.of_append {o : List Output} {pre : List Event} {r r' : Except Fault State}
    (h : SameResult (o ++ pre.map .event) r r') : SameResult o r r' := by
  cases h with
  | stop f => exact .stop f
  | done t u evs evs' hregs ht hu hjoin =>
    exact .done t u (pre ++ evs) (pre ++ evs') hregs (by rw [ht, List.map_append, List.append_assoc])
      (by rw [hu, List.map_append, List.append_assoc]) (joinBodies_append_congr pre hjoin)

/-- After a stretch of the run that `ParserFrame` describes, results are compared as well from its beginning. -/
theorem SameResult.of_frame {s t : State} {r r' : Except Fault State} (hf : ParserFrame s t) (h : SameResult t.out r r') :
    SameResult s.out r r' := by
  obtain ⟨evs, hout, -⟩ := hf
  rw [hout] at h
  exact h.of_append

theorem fpFinal_sameResult (P : Params) (B : List Byte) (s : State) : SameResult s.out (fpFinal P B s) (fpFinal P B s) := by
  cases h : fpFinal P B s with
  | error f => exact .stop f
  | ok t =>
    obtain ⟨evs, hout, -⟩ := fpFinal_frame h
    exact .done t t evs evs rfl hout hout rfl

theorem fpRound_frame_of_ok {P : Params} {B : List Byte} {s : State} {r : Round} (h : fpRound P B s = .ok r) :
    ParserFrame s r.state := by
  rcases fpRound_frame P B s with ⟨h', -⟩ | ⟨t, h', hf, -⟩ | ⟨rest, t, h', -, hf, -⟩ 
  all_goals rw [h'] at h; cases h
  · exact hf
  · exact hf

/-! A cut in a body. -/

/-- What is left of a run after a Data step has streamed its bytes (R160, R161). -/
def dataContinue (P : Params) (rest : List Byte) (s : State) : Except Fault State :=
  if s.cnt < s.bodyLen P then .ok s else fpFinal P rest (completeBody P s)

theorem fpFinal_data {P : Params} {B : List Byte} {s : State} (hst : s.st = .data) :
    fpFinal P B s = dataContinue P (B.drop (s.bodyLen P - s.cnt)) (dataStreamed P B s) := by
  have hbody : (dataStreamed P B s).bodyLen P = s.bodyLen P := by
    rw [dataStreamed_eq]
    rfl
  have hcnt : (dataStreamed P B s).cnt = s.cnt + min (s.bodyLen P - s.cnt) B.length := by
    rw [dataStreamed_eq, List.length_take]
  rw [dataContinue, hbody, hcnt]
  rcases lt_or_ge (s.cnt + B.length) (s.bodyLen P) with hmore | hdone
  · rw [fpFinal_of_needMore (fpRound_data_more hst hmore), if_pos (by omega)]
  · rw [fpFinal_of_advanced (fpRound_data_done hst hdone), if_neg (by omega)]

theorem dataContinue_prependOut (P : Params) (o : List Output) (rest : List Byte) (s : State) :
    dataContinue P rest (s.prependOut o) = (dataContinue P rest s).map (State.prependOut o) := by
  simp only [dataContinue, prependOut_cnt, bodyLen_prependOut, completeBody_prependOut, fpFinal_prependOut]
  split <;> rfl

theorem completeBody_frame (P : Params) (s : State) : ParserFrame s (completeBody P s) :=
  ⟨[.complete _, .typeHook _ _], completeBody_out P s, rfl, rfl, rfl, rfl, rfl⟩

theorem dataContinue_frame {P : Params} {rest : List Byte} {s t : State} (h : dataContinue P rest s = .ok t) :
    ParserFrame s t := by
  rw [dataContinue] at h
  split at h
  · cases h
    exact .refl s
  · exact (completeBody_frame P s).trans (fpFinal_frame h)

/-- One continuation behind two sequences of events that are equal once joined, whatever follows. -/
theorem dataContinue_sameResult {P : Params} {rest : List Byte} {s : State} {evs evs' : List Event} (o : List Output)
    (hs : s.out = []) (hjoin : ∀ es, joinBodies (evs ++ es) = joinBodies (evs' ++ es)) :
    SameResult o (dataContinue P rest (s.prependOut (o ++ evs.map .event)))
      (dataContinue P rest (s.prependOut (o ++ evs'.map .event))) := by
  rw [dataContinue_prependOut, dataContinue_prependOut]
  cases h : dataContinue P rest s with
  | error f => exact .stop f
  | ok t =>
    obtain ⟨es, hout, -⟩ := dataContinue_frame h
    rw [hs, List.nil_append] at hout
    exact .done _ _ (evs ++ es) (evs' ++ es) rfl (by simp [State.prependOut, hout]) (by simp [State.prependOut, hout])
      (hjoin es)

/-- The body bytes of a Data step, with its BODY events put in front of a state without outputs. -/
theorem dataStreamed_eq_prependOut (P : Params) (B : List Byte) (s : State) :
    dataStreamed P B s =
      State.prependOut (s.out ++ (bodyEvents (B.take (s.bodyLen P - s.cnt))).map .event)
        { s with
          csp := csaUpdate s.csp (B.take (s.bodyLen P - s.cnt))
          cnt := s.cnt + (B.take (s.bodyLen P - s.cnt)).length
          out := [] } := by
  rw [dataStreamed_eq, State.prependOut, List.append_nil]

/-- A body slice cut before the body's end: CSP takes the two parts as one (R109), and the BODY events differ by the cut. -/
theorem fpFinal_append_data {P : Params} {B : List Byte} {s : State} (C : List Byte) (hcsp : CsaOk s.csp)
    (hst : s.st = .data) (hlen : s.cnt + B.length < s.bodyLen P) :
    SameResult s.out (fpFinal P (B ++ C) s) (fpFinal P C (dataStreamed P B s)) := by
  have hB : B.take (s.bodyLen P - s.cnt) = B := List.take_of_length_le (by omega)
  have hfirst : dataStreamed P B s =
      { s with csp := csaUpdate s.csp B, cnt := s.cnt + B.length, out := s.out ++ (bodyEvents B).map .event } := by
    rw [dataStreamed_eq, hB]
  obtain ⟨n, hn⟩ : ∃ n, n = s.bodyLen P - (s.cnt + B.length) := ⟨_, rfl⟩
  have hwhole : (B ++ C).take (s.bodyLen P - s.cnt) = B ++ C.take n := by
    rw [take_append_of_length_le C (by omega), Nat.sub_sub, hn]
  have hrest : (B ++ C).drop (s.bodyLen P - s.cnt) = C.drop n := by
    rw [List.drop_append, List.drop_eq_nil_of_le (by omega), List.nil_append, Nat.sub_sub, hn]
  have hsecond : dataStreamed P C (dataStreamed P B s) =
      State.prependOut (s.out ++ (bodyEvents B ++ bodyEvents (C.take n)).map .event)
        { s with csp := csaUpdate s.csp (B ++ C.take n), cnt := s.cnt + (B ++ C.take n).length, out := [] } := by
    rw [hfirst, dataStreamed_eq_prependOut, csaUpdate_append hcsp, List.length_append, ← Nat.add_assoc, List.map_append,
      ← List.append_assoc, hn]
    rfl
  have hbound : (dataStreamed P B s).bodyLen P - (dataStreamed P B s).cnt = n := by
    rw [hfirst, hn]
    rfl
  rw [fpFinal_data hst, fpFinal_data ((dataStreamed_st P B s).trans hst), hsecond, hbound, dataStreamed_eq_prependOut,
    hwhole, hrest]
  exact dataContinue_sameResult s.out rfl (joinBodies_bodyEvents_append B (C.take n))

/-! One cut, then any number. -/

/-- A payload cut in two is the same run as the two parts one after the other. -/
theorem fpFinal_append {P : Params} (B C : List Byte) (s : State) (hs : MidRun P s) :
    SameResult s.out (fpFinal P (B ++ C) s) ((fpFinal P B s).bind (fpFinal P C)) := by
  induction B, s using fpRound_induction P with
  | stop B s f hr =>
    rw [fpFinal_of_error hr, fpFinal_of_error (fpRound_append_error C hr)]
    exact .stop f
  | needMore B s rest t hr =>
    rw [fpFinal_of_needMore hr]
    by_cases hdata : s.st = .data
    · cases roundCase_of_eq hr with
      | dataMore hst hlen => exact fpFinal_append_data C hs.csp hst hlen
      | searching k hst | headerMore hst | drainMore hst => simp [hst] at hdata
    · rw [fpFinal_congr (fpRound_append_needMore C hdata hr)]
      exact .of_frame (fpRound_frame_of_ok hr) (fpFinal_sameResult P C t)
  | advanced B s rest t hr ih =>
    rw [fpFinal_of_advanced hr, fpFinal_of_advanced (fpRound_append_advanced C hr)]
    exact .of_frame (fpRound_frame_of_ok hr) (ih (fpRound_midRun hs hr))

/-- At rest an empty payload changes nothing (R143). -/
theorem fpFinal_empty {P : Params} {s : State} (h : Inv P s) : fpFinal P [] s = .ok s := by
  obtain ⟨-, -, -, -, -, hheader, hdata, hdrain⟩ := h
  cases hst : s.st with
  | intron => exact fpFinal_of_needMore (fpRound_intron hst)
  | header => exact fpFinal_of_needMore (fpRound_header_more (B := []) hst (hheader hst).2.1)
  | data =>
    have hnone : dataStreamed P [] s = s := by simp [dataStreamed_eq, bodyEvents]
    rw [fpFinal_of_needMore (fpRound_data_more (B := []) hst (hdata hst).2.1), hnone]
  | throwAway => exact fpFinal_of_needMore (fpRound_throw_more (B := []) hst (hdrain hst).2)

/-- Any cutting of a stream is the same as the whole of it. -/
theorem fpCalls_sameResult {P : Params} (Bs : List (List Byte)) (s : State) (hs : Inv P s) :
    SameResult s.out (fpFinal P Bs.flatten s) (fpCalls P Bs s) := by
  induction Bs generalizing s with
  | nil =>
    rw [List.flatten_nil, fpFinal_empty hs]
    exact .done s s [] [] rfl (by simp) (by simp) rfl
  | cons B Bs ih =>
    rw [List.flatten_cons, fpCalls_cons]
    refine (fpFinal_append B Bs.flatten s hs.midRun).trans ?_
    cases h : fpFinal P B s with
    | error f => exact .stop f
    | ok t => exact .of_frame (fpFinal_frame h) (ih t (fpFinal_inv B s hs.midRun t h))

/-- Settles O45, by induction on the cuts: one cut is `fpFinal_append`, followed through the round it falls in. -/
theorem parserIsChunkInvariant : Obligations.ParserIsChunkInvariant := by
  intro P s Bs hs
  rw [fpRun_eq_fpFinal]
  have h := fpCalls_sameResult Bs s hs
  generalize fpFinal P Bs.flatten s = r at h
  generalize hcalls : fpCalls P Bs s = r' at h
  cases h with
  | stop f => rfl
  | done t u evs evs' hregs ht hu hjoin => exact ⟨u, evs, evs', rfl, hregs, ht, hu, hjoin⟩

end Sys2Proof.Machine
end

section
/-! A legal packet on the command port (R60): of the four things a step can do, it leaves running the command alone. -/

namespace Sys2Proof.Machine

/-- Settles O8: each other case of `step_cases` disagrees with a premise, and in its own the packet, what follows it and the
command are the given ones. -/
theorem stepRunsDecodedCommand : Obligations.StepRunsDecodedCommand := by
  intro s pkt rest i hrst hfetch hdecode
  rcases step_cases s with ⟨hreset, -⟩ | ⟨-, hwait, -⟩ | ⟨pkt', rest', i', -, hfetch', hdecode', hs⟩
    | ⟨pkt', rest', r, -, hfetch', hdecode', -⟩
  · cases hrst.symm.trans hreset
  · cases hfetch.symm.trans hwait
  · cases hfetch.symm.trans hfetch'
    cases hdecode.symm.trans hdecode'
    exact hs
  · cases hfetch.symm.trans hfetch'
    cases hdecode.symm.trans hdecode'

end Sys2Proof.Machine
end

section
/-! Packets and their beats (30_encoding.md): framing on the ports (R70, R76), the encoder and the decoder (R71 to R74, R82). -/

namespace Sys2Proof.Machine

/-! Framing (R70, R76). -/

/-- The bytes of a packet end at the first beat with `last` (R70): the converse of `takeBytes_some`. -/
theorem takeBytes_append {bs : List Beat} {b : Beat} (hbs : ∀ c ∈ bs, c.last = false) (hb : b.last = true)
    (rest : List Beat) : takeBytes (bs ++ b :: rest) = some (bs.map Beat.data ++ [b.data], rest) := by
  induction bs with
  | nil => simp [takeBytes, hb]
  | cons c bs ih =>
    obtain ⟨hc, hbs⟩ := List.forall_mem_cons.1 hbs
    simp [takeBytes, hc, ih hbs]

/-- Without a beat with `last` no packet has come (R70). -/
theorem takeBytes_eq_none {bs : List Beat} (hbs : ∀ c ∈ bs, c.last = false) : takeBytes bs = none := by
  cases htake : takeBytes bs with
  | none => rfl
  | some p =>
    obtain ⟨cs, b, rfl, -, hb, -⟩ := takeBytes_some htake
    simp [hbs b (by simp)] at hb

/-- Beat 0 is the opcode, the other beats are the payload (R70). -/
theorem fetchPacket_of_takeBytes {cmd rest : List Beat} {pkt : Packet}
    (h : takeBytes cmd = some (pkt.op :: pkt.payload, rest)) : fetchPacket cmd = some (pkt, rest) := by
  simp only [fetchPacket, h]

theorem fetchPacket_eq_none {cmd : List Beat} (h : takeBytes cmd = none) : fetchPacket cmd = none := by
  simp only [fetchPacket, h]

/-- Settles O5: the bytes taken are the beats' data, and as there is at least one beat they have a first byte, the opcode. -/
theorem framedPacketIsTaken : Obligations.FramedPacketIsTaken := by
  refine ⟨fun bs rest b hbs hb => ?framed, fun bs hbs => fetchPacket_eq_none (takeBytes_eq_none hbs)⟩
  case framed =>
    have htake := takeBytes_append hbs hb rest
    obtain ⟨op, payload, hdata⟩ := List.exists_cons_of_ne_nil (l := bs.map Beat.data ++ [b.data]) (by simp)
    exact ⟨⟨op, payload⟩, fetchPacket_of_takeBytes (hdata ▸ htake), hdata.symm⟩

/-- The last byte's beat carries `last`, and no other (R70, R76, R180). -/
theorem frameBeats_append_singleton (ds : List Byte) (b : Byte) :
    frameBeats (ds ++ [b]) = ds.map (fun c => ⟨c, false⟩) ++ [⟨b, true⟩] := by
  induction ds with
  | nil => rfl
  | cons d ds ih =>
    obtain ⟨c, cs, hcons⟩ := List.exists_cons_of_ne_nil (l := ds ++ [b]) (by simp)
    rw [hcons] at ih
    rw [List.cons_append, hcons, frameBeats, ih]
    rfl

/-- Settles O59: a response's beats are framed bytes by definition. -/
theorem responsePacketsAreEncoded : Obligations.ResponsePacketsAreEncoded := fun _ ds b =>
  ⟨rfl, rfl, frameBeats_append_singleton ds b⟩

/-- Framed bytes are taken off a port as they were put on it (R70). -/
theorem takeBytes_frameBeats {ds : List Byte} (h : ds ≠ []) (rest : List Beat) :
    takeBytes (frameBeats ds ++ rest) = some (ds, rest) := by
  obtain ⟨init, b, rfl⟩ := (List.eq_nil_or_concat' ds).resolve_left h
  have htake := takeBytes_append (bs := init.map fun c => ⟨c, false⟩) (b := ⟨b, true⟩) (by simp) rfl rest
  simpa [frameBeats_append_singleton, Function.comp_def] using htake

/-- A packet is taken off the command port as it was put on it (R70). -/
theorem fetchPacket_packetBeats (pkt : Packet) (rest : List Beat) :
    fetchPacket (packetBeats pkt ++ rest) = some (pkt, rest) :=
  fetchPacket_of_takeBytes (takeBytes_frameBeats (List.cons_ne_nil _ _) rest)

/-! Rows and commands (R71 to R73). -/

/-- A command is well formed exactly when its row's format admits its payload (R71, R74). -/
theorem admits_payload_eq_wellFormed (P : Params) (i : Instr) :
    i.opcode.format.admits P i.payload.length = i.wellFormed P := by
  cases i <;> rfl

/-- A command is its row with its payload. -/
theorem command_opcode_payload (i : Instr) : i.opcode.command i.payload = i := by
  cases i <;> rfl

theorem opcode_command (o : Opcode) (B : List Byte) : (o.command B).opcode = o := by
  cases o <;> rfl

/-- A command keeps every payload its row's format admits (R73). -/
theorem payload_command {P : Params} {o : Opcode} {B : List Byte} (h : o.format.admits P B.length = true) :
    (o.command B).payload = B := by
  cases o with
  | csUpdate | fpSetIntron | fpProcess => rfl
  | csReset | csGet | fpReset | fpStatus =>
    obtain rfl : B = [] := by simpa [Opcode.format, Format.admits] using h
    rfl

/-! The decoder and the encoder (R74, R82). -/

/-- The packet of a legal command decodes to it. -/
theorem decode_encode {P : Params} {i : Instr} (h : i.wellFormed P = true) : decode P (encode i) = .ok i := by
  have hdecode := decode_admitted ((admits_payload_eq_wellFormed P i).trans h)
  rwa [command_opcode_payload] at hdecode

/-- Settles O1: the packet passes the port as it was put on it, and the decoder inverts the encoder. -/
theorem decodeEncodeRoundTrip : Obligations.DecodeEncodeRoundTrip := fun _ i rest hi =>
  ⟨encode i, fetchPacket_packetBeats (encode i) rest, decode_encode hi, rfl⟩

/-- Settles O2: of the three cases of `decode_cases` one decodes, and its row and payload are the command's own. -/
theorem decodedPacketIsEncoding : Obligations.DecodedPacketIsEncoding := by
  intro P pkt i hdecode
  rcases decode_cases P pkt with ⟨-, herror⟩ | ⟨o, hop, hadmits, hok⟩ | ⟨-, r, -, -, herror⟩
  · cases hdecode.symm.trans herror
  · cases hdecode.symm.trans hok
    have hpayload := payload_command hadmits
    constructor
    · rw [encode, opcode_command, hpayload, ← hop]
    · rw [← admits_payload_eq_wellFormed, opcode_command, hpayload, hadmits]
  · cases hdecode.symm.trans herror

/-- A packet of a row is illegal exactly when the row's format refuses its payload (R74(b), R74(c)). -/
theorem illegalPacket_iff_not_admits {P : Params} {pkt : Packet} {o : Opcode} (hop : pkt.op = o.byte) :
    IllegalPacket P pkt ↔ o.format.admits P pkt.payload.length = false := by
  rw [IllegalPacket, hop]
  cases o <;> simp [Opcode.byte, Opcode.format, Format.admits]

/-- Settles O3: in each case of `decode_cases` both sides hold or both fail. -/
theorem rejectsExactlyIllegalPackets : Obligations.RejectsExactlyIllegalPackets := by
  intro P pkt
  rcases decode_cases P pkt with ⟨hreserved, herror⟩ | ⟨o, hop, hadmits, hok⟩ | ⟨o, r, hop, hadmits, herror⟩
  · exact iff_of_true ⟨_, herror⟩ (.inl (Opcode.ofByte_eq_none.1 hreserved))
  · have hlegal : ¬ IllegalPacket P pkt := by simp [illegalPacket_iff_not_admits hop, hadmits]
    exact iff_of_false (fun ⟨r, hr⟩ => by cases hok.symm.trans hr) hlegal
  · exact iff_of_true ⟨r, herror⟩ ((illegalPacket_iff_not_admits hop).2 hadmits)

/-- Settles O4: the decoder rejects the packet (R74), and each case of `step_cases` but the answer disagrees with a premise. -/
theorem illegalPacketIsAnswered : Obligations.IllegalPacketIsAnswered := by
  intro s pkt rest hrst hfetch hillegal
  obtain ⟨r, hreject⟩ := (rejectsExactlyIllegalPackets _ pkt).2 hillegal
  rcases step_cases s with ⟨hreset, -⟩ | ⟨-, hwait, -⟩ | ⟨pkt', rest', i, -, hfetch', hdecode, -⟩
    | ⟨pkt', rest', r', -, hfetch', -, hs⟩
  · cases hrst.symm.trans hreset
  · cases hfetch.symm.trans hwait
  · cases hfetch.symm.trans hfetch'
    cases hreject.symm.trans hdecode
  · cases hfetch.symm.trans hfetch'
    exact hs

/-- Settles O27: format S admits every payload, and `exec` dispatches to the parser's command. -/
theorem processRunsAtOwnParameters : Obligations.ProcessRunsAtOwnParameters :=
  ⟨fun _ _ => decode_admitted (o := .fpProcess) rfl, fun _ _ => rfl⟩

end Sys2Proof.Machine
end

section
/-! The two pseudo-commands (R80): the closed form of the checksum of one update (R111), and the pieces `fp.feed` cuts. -/

namespace Sys2Proof.Machine

/-! The closed form (R111). -/

/-- The exact sums of words: their sum, and the weighted sum, in which a word counts once for each word from it on (R111). -/
theorem foldl_exactStep_eq (ws : List Nat) (s : Nat × Nat) :
    ws.foldl exactStep s = (s.1 + ws.sum, s.2 + ws.length * s.1 + weightedSum ws) := by
  induction ws generalizing s with
  | nil => simp [weightedSum]
  | cons w ws ih =>
    rw [List.foldl_cons, ih]
    simp only [exactStep, List.sum_cons, List.length_cons, weightedSum]
    ext <;> simp only <;> ring

/-- Both sums as one number, the first one low (R101(c)). -/
def packSums (s : Nat × Nat) : Nat := s.1 + 65536 * s.2

/-- The closed form is the fold of STEP from zero over the padded stream. -/
theorem fletcher_eq (X : List Byte) : fletcher X = packSums ((wordPairs (padEven X)).foldl sumStep (0, 0)) := by
  have hfold := foldl_sumStep_reduceSums (wordPairs (padEven X)) (0, 0)
  rw [foldl_exactStep_eq] at hfold
  simpa [fletcher, packSums, reduceSums] using congrArg packSums hfold.symm

/-- Padding a stream pads its unpaired last byte (R111). -/
theorem wordPairs_padEven (X : List Byte) : wordPairs (padEven X) = wordPairs X ++ wordPairs (padEven (oddTail X)) := by
  obtain ⟨E, heven, hsplit, hwords⟩ := exists_even_append_oddTail X
  have hpad : padEven X = E ++ padEven (oddTail X) := by
    rw [padEven, padEven, oddTail_length, Nat.mod_mod]
    split
    · rw [← List.append_assoc, ← hsplit]
    · exact hsplit
  rw [hpad, wordPairs_append _ heven, hwords]

/-- CSA_GET adds the unpaired last byte as the word it makes with a zero byte (R110). -/
theorem csaGet_ofSums {p : Nat × Nat} {left : List Byte} (hp : Reduced p) (hleft : left.length < 2) :
    (csaGet (Csa.ofSums p left)).toNat = packSums ((wordPairs (padEven left)).foldl sumStep p) := by
  obtain ⟨h0, h1⟩ : (Csa.ofSums p left).c0.toNat = p.1 ∧ (Csa.ofSums p left).c1.toNat = p.2 :=
    Prod.mk.inj (Csa.sums_ofSums left hp)
  match left, hleft with
  | [], _ =>
    obtain ⟨hp0, hp1⟩ := hp
    rw [csaGet_of_not_pending rfl, h0, h1, combine_toNat (hp0.trans (by decide)) (hp1.trans (by decide))]
    rfl
  | [b], _ =>
    obtain ⟨hr0, hr1⟩ : Reduced (sumStep p b.toNat) := foldl_sumStep_reduced [b.toNat] hp
    have hget : csaGet (Csa.ofSums p [b])
        = BitVec.ofNat 32 (sumStep p b.toNat).1 ||| (BitVec.ofNat 32 (sumStep p b.toNat).2 <<< 16) := by
      simp only [csaGet, h0, h1]
      rfl
    rw [hget, combine_toNat (hr0.trans (by decide)) (hr1.trans (by decide))]
    simp [padEven, wordPairs, packSums]
  | _ :: _ :: _, h => simp at h

/-- The checksum of a stream fed to the zeroed accumulator in one update is the closed form (R111). -/
theorem csaGet_csaUpdate_zero (B : List Byte) : (csaGet (csaUpdate Csa.zero B)).toNat = fletcher B := by
  have hreduced : Reduced ((wordPairs B).foldl sumStep Csa.zero.sums) := foldl_sumStep_reduced _ Csa.zero_ok.reduced
  rw [csaUpdate_eq Csa.zero_ok, show Csa.zero.pending = [] from rfl, List.nil_append,
    csaGet_ofSums hreduced (oddTail_length_lt B), ← List.foldl_append, ← wordPairs_padEven, fletcher_eq]
  rfl

/-! The pieces (R80). -/

theorem pieces_empty (n k : Nat) : pieces n k [] = [] := by cases n <;> rfl

/-- Pieces of at least one byte, as many as there are bytes, make up all of them. -/
theorem pieces_flatten {n k : Nat} {B : List Byte} (hk : 0 < k) (hn : B.length ≤ n) : (pieces n k B).flatten = B := by
  induction n generalizing B with
  | zero =>
    obtain rfl : B = [] := List.length_eq_zero_iff.1 (by omega)
    rfl
  | succ n ih =>
    cases B with
    | nil => rfl
    | cons b bs =>
      have hrest : ((b :: bs).drop k).length ≤ n := by
        rw [List.length_drop]
        omega
      rw [pieces, List.flatten_cons, ih hrest, List.take_append_drop]

/-- No piece is empty or longer than `k`. -/
theorem pieces_bounds {n k : Nat} {B C : List Byte} (hk : 0 < k) (hC : C ∈ pieces n k B) : C ≠ [] ∧ C.length ≤ k := by
  induction n, k, B using pieces.induct with
  | case1 | case2 => simp [pieces] at hC
  | case3 n k b bs ih =>
    rcases List.mem_cons.1 hC with rfl | hC
    · exact ⟨by simp [hk.ne'], List.length_take_le _ _⟩
    · exact ih hk hC

/-- A piece with another behind it is a whole one. -/
theorem pieces_dropLast_length {n k : Nat} {B C : List Byte} (hC : C ∈ (pieces n k B).dropLast) : C.length = k := by
  induction n, k, B using pieces.induct with
  | case1 | case2 => simp [pieces] at hC
  | case3 n k b bs ih =>
    have hrest : pieces n k ((b :: bs).drop k) ≠ [] := by
      intro hnone
      simp [pieces, hnone] at hC
    rw [pieces, List.dropLast_cons_of_ne_nil hrest] at hC
    rcases List.mem_cons.1 hC with rfl | hC
    · have hlong : ¬ (b :: bs).length ≤ k := by
        intro hshort
        rw [List.drop_eq_nil_of_le hshort, pieces_empty] at hrest
        exact hrest rfl
      rw [List.length_take]
      omega
    · exact ih hC

/-- Settles O22: CS.RESET leaves the zeroed accumulator, so CS.GET answers the closed form of the one update; `fp.feed` is one
FP.PROCESS per piece. -/
theorem pseudoCommandsExpand : Obligations.PseudoCommandsExpand := by
  refine ⟨fun B s => ⟨rfl, _, _, _, rfl, rfl, rfl, ?sum⟩, fun k B hk => ⟨pieces B.length k B, ?feed⟩⟩
  case sum =>
    rw [← csaGet_csaUpdate_zero, BitVec.ofNat_toNat, BitVec.setWidth_eq]
    rfl
  case feed =>
    exact ⟨if_neg hk.ne', pieces_flatten hk le_rfl, fun _ => pieces_bounds hk, fun _ => pieces_dropLast_length⟩

end Sys2Proof.Machine
end

section
/-! The commands on CSH (R113 to R115) against the flat form (R106) and the closed form (R111), and the empty payload (R105,
R143). -/

namespace Sys2Proof.Machine

/-! CS.RESET and CS.UPDATE: the flat form. -/

/-- Settles O13: format N admits the empty payload, and CSA_RESET gives the zeroed accumulator. -/
theorem csResetResult : Obligations.CsResetResult :=
  ⟨fun _ => decode_admitted (o := .csReset) rfl, fun _ => rfl⟩

/-- A byte is left over exactly from an odd number of bytes (R51). -/
theorem oddTail_isEmpty (S : List Byte) : (oddTail S).isEmpty = !(S.length % 2 == 1) := by
  rw [← oddTail_length S]
  match oddTail S, oddTail_length_lt S with
  | [], _ => rfl
  | [_], _ => rfl
  | _ :: _ :: _, h => simp at h

/-- The byte left over is the last one (R106). -/
theorem oddTail_headD (S : List Byte) : (oddTail S).headD 0 = if S.length % 2 = 1 then S.getLastD 0 else 0 := by
  obtain ⟨E, -, hsplit, -⟩ := exists_even_append_oddTail S
  rw [← oddTail_length S]
  match htail : oddTail S, oddTail_length_lt S with
  | [], _ => rfl
  | [b], _ => rw [hsplit, htail]; simp
  | _ :: _ :: _, h => simp at h

/-- The flat definition (R106) is the sums folded over the words, and the byte left over. -/
theorem csaFlat_eq (A : Csa) (B : List Byte) :
    csaFlat A B = Csa.ofSums ((wordPairs (A.pending ++ B)).foldl sumStep A.sums) (oddTail (A.pending ++ B)) := by
  rw [Csa.ofSums, oddTail_isEmpty, oddTail_headD, Bool.not_not]
  rfl

/-- CSA_UPDATE in bulk passes refines the flat definition (R104, R106, R107). -/
theorem csaUpdate_eq_csaFlat {A : Csa} (hA : CsaOk A) (B : List Byte) : csaUpdate A B = csaFlat A B := by
  rw [csaUpdate_eq hA, csaFlat_eq]

/-- CS.UPDATE writes CSH and answers; nothing else (R114). -/
theorem exec_csUpdate (B : List Byte) (s : State) :
    exec (.csUpdate B) s
      = .next { s with csh := csaUpdate s.csh B, out := s.out ++ [.response ⟨.ok, []⟩] } := rfl

/-- Settles O14: both forms fold STEP over the words of the pending byte and the payload; that the passes do is
`csaUpdate_eq`, by induction on the passes. -/
theorem csUpdateRefinesFlatForm : Obligations.CsUpdateRefinesFlatForm := by
  refine ⟨fun P B => decode_admitted (o := .csUpdate) rfl, fun s B hcsh => ?_⟩
  rw [exec_csUpdate, csaUpdate_eq_csaFlat hcsh]

/-! CS.GET: the four bytes. -/

/-- The port's four bytes of a 32-bit value are its number's, least significant first (R54). -/
theorem le32_eq_leBytes (ck : Word32) : le32 ck = leBytes 4 ck.toNat := by
  simp [le32, byteOf, leBytes, BitVec.extractLsb', Nat.shiftRight_eq_div_pow, Nat.div_div_eq_div_mul]

/-- A combined checksum goes out as the bytes of its low half, then of its high half (R101(c), R115). -/
theorem le32_combine {x y : Nat} (hx : x < 65536) (hy : y < 65536) :
    le32 (BitVec.ofNat 32 x ||| (BitVec.ofNat 32 y <<< 16))
      = [BitVec.ofNat 8 x, BitVec.ofNat 8 (x / 256), BitVec.ofNat 8 y, BitVec.ofNat 8 (y / 256)] := by
  rw [le32_eq_leBytes, combine_toNat hx hy]
  simp only [leBytes, List.cons.injEq, ← BitVec.toNat_inj, BitVec.toNat_ofNat, and_true]
  omega

/-- The low half of the checksum, `t0` of R110. -/
def Csa.lowHalf (A : Csa) : Nat := if A.pendV then (A.c0.toNat + A.pendB.toNat) % 65535 else A.c0.toNat

/-- The high half of the checksum, `t1` of R110. -/
def Csa.highHalf (A : Csa) : Nat := if A.pendV then (A.c1.toNat + A.lowHalf) % 65535 else A.c1.toNat

theorem csaGet_eq_halves (A : Csa) :
    csaGet A = BitVec.ofNat 32 A.lowHalf ||| (BitVec.ofNat 32 A.highHalf <<< 16) := rfl

/-- A sum as stored has 16 bits; with a byte folded in it is reduced. -/
theorem foldedHalf_lt (c : Word16) (n : Nat) (pending : Bool) :
    (if pending then (c.toNat + n) % 65535 else c.toNat) < 65536 := by
  cases pending with
  | false => exact c.isLt
  | true => exact (Nat.mod_lt _ (by decide)).trans (by decide)

/-- CS.GET's data, for every accumulator, reduced or not (R115). -/
theorem le32_csaGet (A : Csa) :
    le32 (csaGet A) = [BitVec.ofNat 8 A.lowHalf, BitVec.ofNat 8 (A.lowHalf / 256),
      BitVec.ofNat 8 A.highHalf, BitVec.ofNat 8 (A.highHalf / 256)] := by
  rw [csaGet_eq_halves]
  exact le32_combine (foldedHalf_lt A.c0 _ A.pendV) (foldedHalf_lt A.c1 _ A.pendV)

/-- CS.GET answers and writes nothing (R115). -/
theorem exec_csGet (s : State) :
    exec .csGet s = .next { s with out := s.out ++ [.response ⟨.ok, le32 (csaGet s.csh)⟩] } := rfl

/-- Settles O15: with or without a pending byte each half fits 16 bits, so the four bytes are the halves' own. -/
theorem csGetResult : Obligations.CsGetResult := by
  refine ⟨fun _ => decode_admitted (o := .csGet) rfl, fun s => ?_⟩
  rw [exec_csGet, le32_csaGet]
  rfl

/-! Streams in pieces: the closed form. -/

/-- Any number of updates is one update with all the bytes (R109). -/
theorem foldl_csaUpdate {A : Csa} (hA : CsaOk A) (Bs : List (List Byte)) :
    Bs.foldl csaUpdate A = csaUpdate A Bs.flatten := by
  induction Bs generalizing A with
  | nil => exact (csaUpdate_empty A).symm
  | cons B Bs ih => rw [List.foldl_cons, ih (csaUpdate_ok hA B), List.flatten_cons, csaUpdate_append hA]

/-- Settles O19: the pieces are one update of the zeroed accumulator, whose checksum is the closed form. -/
theorem checksumClosedForm : Obligations.ChecksumClosedForm := by
  intro Bs
  rw [foldl_csaUpdate Csa.zero_ok, csaGet_csaUpdate_zero]

/-! The empty payload. -/

/-- An FP.PROCESS whose run ends answers OK (R137). -/
theorem fpProcess_of_fpFinal {P : Params} {B : List Byte} {s t : State} (h : fpFinal P B s = .ok t) :
    fpProcess P B s = .next (answerOk t) := by
  rw [fpProcess, fpRun_eq_fpFinal, h]
  rfl

/-- Settles O33: at rest the first round needs more input and leaves the state as it was. -/
theorem emptyPayloadChangesNothing : Obligations.EmptyPayloadChangesNothing :=
  ⟨fun _ _ hs => fpProcess_of_fpFinal (fpFinal_empty hs), csaUpdate_empty⟩

end Sys2Proof.Machine
end

section
/-! The parser's commands without a run over a payload: FP.RESET and FP.SETINTRON bring the parser to its initial state (R131,
R134), FP.STATUS reads `st` and `valid` (R145). -/

namespace Sys2Proof.Machine

/-! FP.RESET and FP.SETINTRON. -/

/-- What both commands leave: the parser's registers but `intron` at their reset values, and one OK response (R131). -/
theorem answerOk_parserInit (s : State) :
    answerOk (parserInit s) =
      { s with
        st := .intron, mpos := 0, cnt := 0, scratch := [], valid := false, csp := Csa.zero
        out := s.out ++ [.response ⟨.ok, []⟩] } := rfl

/-- FP.RESET is the initialisation, answered (R131). -/
theorem exec_fpReset (s : State) : exec .fpReset s = .next (answerOk (parserInit s)) := rfl

/-- FP.SETINTRON of the right length is the pattern's write, then FP.RESET (R134). -/
theorem exec_fpSetIntron {B : List Byte} (h : B.length = Config.params.intronLen) (s : State) :
    exec (.fpSetIntron B) s = exec .fpReset { s with intron := B } :=
  congrArg Host.Outcome.next (fpSetIntron_of_length h s)

/-- Settles O23: format N admits the empty payload, and the command is the initialisation. -/
theorem fpResetResult : Obligations.FpResetResult := by
  refine ⟨fun _ => decode_admitted (o := .fpReset) rfl, fun s => ?_⟩
  rw [exec_fpReset, answerOk_parserInit]
  rfl

/-- Settles O24: format I admits a payload of `INTRON_LEN` bytes, and the command is FP.RESET after the pattern's write. -/
theorem fpSetIntronResult : Obligations.FpSetIntronResult := by
  refine ⟨fun P B hB => decode_admitted (o := .fpSetIntron) (beq_iff_eq.2 hB), fun s B hB => ?_⟩
  rw [exec_fpSetIntron hB]
  exact fpResetResult.2 { s with intron := B }

/-! FP.STATUS. -/

/-- FP.STATUS answers one byte and writes nothing (R145). -/
theorem exec_fpStatus (s : State) :
    exec .fpStatus s = .next { s with out := s.out ++ [.response ⟨.ok, [statusByte s.st s.valid]⟩] } := rfl

/-- The status byte as a number: the state's code in the two low bits, `valid` above it (R28, R145). -/
theorem statusByte_toNat (st : FsmState) (v : Bool) : (statusByte st v).toNat = st.code.toNat + 4 * v.toNat := by
  cases st <;> cases v <;> rfl

/-- Settles O26: the code is below 4 and the bit below 2, so division by powers of two takes the sum of `statusByte_toNat`
apart. -/
theorem fpStatusResult : Obligations.FpStatusResult := by
  refine ⟨fun _ => decode_admitted (o := .fpStatus) rfl, fun s => ⟨statusByte s.st s.valid, exec_fpStatus s, ?_⟩⟩
  have hcode : s.st.code.toNat < 4 := s.st.code.isLt
  have hvalid : s.valid.toNat < 2 := s.valid.toNat_lt
  rw [statusByte_toNat]
  refine ⟨?state, by omega, by omega⟩
  case state =>
    rw [Nat.add_mul_mod_self_left, Nat.mod_eq_of_lt hcode]
    cases s.st <;> rfl

end Sys2Proof.Machine
end

section
/-! The transitions of the four-state machine one by one (R152 to R166): what a payload that stays within a state, or just
completes it, leaves behind. -/

namespace Sys2Proof.Machine

/-! Settled pieces: acceptance, the header in scratch and in CSP, the ends of a frame. -/

/-- The answer beat 0x01 alone is ACCEPT (R184). -/
theorem Answer.accepts_iff (a : Answer) : a.accepts = true ↔ a = .beat 1 := by
  cases a with
  | beat b => simp [Answer.accepts]
  | failure => simp [Answer.accepts]

/-- The machine's acceptance is the predicate of R158. -/
theorem accepted_iff (P : Params) (h : List Byte) (a : Answer) : accepted P h a = true ↔ Accepts P h a := by
  simp only [accepted, Bool.and_eq_true, Answer.accepts_iff, List.contains_iff_mem, and_assoc]

/-- The covered bytes fed one at a time are one update with all of them (R109, R156). -/
theorem feedCovered_eq_csaUpdate (P : Params) (a : Nat) (bs : List Byte) {A : Csa} (hA : CsaOk A) :
    feedCovered P a bs A = csaUpdate A (covered P a bs) := by
  have hpieces := foldl_csaUpdate hA ((covered P a bs).map fun b => [b])
  rw [List.foldl_map, ← List.flatMap_def, List.flatMap_singleton'] at hpieces
  exact hpieces

/-- What a read finds after consecutive writes: the byte written there, or what was there before. -/
theorem read_writeAll {m : Memory} (hm : m.wf) (a : Nat) (bs : List Byte) (x : Nat) :
    (m.writeAll a bs).read x = if a ≤ x ∧ x < a + bs.length then bs.getD (x - a) 0 else m.read x := by
  induction bs generalizing m a with
  | nil =>
    rw [if_neg (by simp)]
    rfl
  | cons b bs ih =>
    rw [Memory.writeAll, ih (Memory.write_wf a b hm), Memory.read_write hm, List.length_cons]
    rcases lt_trichotomy x a with hlt | rfl | hgt
    · rw [if_neg (by omega), if_neg (by omega), if_neg (by omega)]
    · rw [if_neg (by omega), if_pos rfl, if_pos (by omega), Nat.sub_self]
      rfl
    · obtain ⟨k, rfl⟩ : ∃ k, x = a + 1 + k := ⟨x - (a + 1), by omega⟩
      have hoff : a + 1 + k - a = (a + 1 + k - (a + 1)) + 1 := by omega
      rw [hoff, List.getD_cons_succ, if_neg (show a ≠ a + 1 + k by omega)]
      exact if_congr (by omega) rfl rfl

/-- The bytes up to the end of consecutive writes are those before them, then those written. -/
theorem bytes_writeAll {m : Memory} (hm : m.wf) (a : Nat) (bs : List Byte) :
    (m.writeAll a bs).bytes (a + bs.length) = m.bytes a ++ bs := by
  refine List.ext_getElem? fun x => ?_
  rw [Memory.bytes_getElem?, read_writeAll hm, List.getElem?_append, Memory.bytes_length, Memory.bytes_getElem?]
  rcases lt_or_ge x a with hbefore | hfrom
  · rw [if_pos (by omega), if_neg (by omega), if_pos hbefore, if_pos hbefore]
  · rcases lt_or_ge x (a + bs.length) with hin | hafter
    · rw [if_pos hin, if_pos ⟨hfrom, hin⟩, if_neg (by omega), List.getD_eq_getElem _ _ (by omega),
        List.getElem?_eq_getElem (by omega)]
    · rw [if_neg (by omega), if_neg (by omega), List.getElem?_eq_none (by omega)]

/-- Drain completion is the one record of R165. -/
theorem completeDrain_eq_endDrain (s : State) : completeDrain s = endDrain s := rfl

/-! The run from each state. -/

section
variable {P : Params} {s : State}

theorem fpFinal_search_empty (hst : s.st = .intron) : fpFinal P [] s = .ok s := fpFinal_of_needMore (fpRound_intron hst)

/-- A search that finds the pattern: the run goes on in the frame (R152). -/
theorem fpFinal_frameFound {B rest : List Byte} (hst : s.st = .intron) (h : stepIntron P B s = .advanced rest (startFrame s)) :
    fpFinal P B s = fpFinal P rest (startFrame s) := fpFinal_of_advanced (by rw [fpRound_intron hst, h])

/-- Header bytes short of the header's end (R156). -/
theorem fpFinal_header_more {B : List Byte} (hcsp : CsaOk s.csp) (hst : s.st = .header)
    (hlen : s.cnt + B.length < P.hdrLen) :
    fpFinal P B s = .ok
      { s with
        scratch := s.scratch.writeAll s.cnt B, csp := csaUpdate s.csp (covered P s.cnt B), cnt := s.cnt + B.length } := by
  rw [fpFinal_of_needMore (fpRound_header_more hst hlen), headerStored_eq, List.take_of_length_le (by omega),
    feedCovered_eq_csaUpdate P _ _ hcsp]

/-- The byte that completes the pattern (R152, R154). -/
theorem fpFinal_full_match {b : Byte} (hst : s.st = .intron) (hmpos : s.mpos + 1 = P.intronLen)
    (hb : s.intron[s.mpos]? = some b) : fpFinal P [b] s = .ok (startFrame s) := by
  have hfound : stepIntron P [b] s = .advanced [] (startFrame s) := by simp [stepIntron, comparePos, hb, hmpos]
  rw [fpFinal_frameFound hst hfound]
  exact (fpFinal_header_more (B := []) Csa.zero_ok rfl (Nat.succ_pos _)).trans rfl

/-- The state behind a header `h` that the bytes `H` complete, with its answer: BEGIN is out and the frame begun (R157, R158). -/
def frameBegun (P : Params) (h H : List Byte) (a : Answer) (as : List Answer) (s : State) : State :=
  { s with
    scratch := s.scratch.writeAll s.cnt H, csp := csaUpdate s.csp (covered P s.cnt H), cnt := 0, answers := as
    st := if Accepts P h a then .data else .throwAway
    out := s.out ++ [.event (.beginFrame h)] }

/-- The header then in scratch is the bytes stored before and `H`. -/
theorem header_frameBegun {h H : List Byte} (a : Answer) (as : List Answer) (hwf : s.scratch.wf)
    (hlen : s.cnt + H.length = P.hdrLen) (hh : s.scratch.bytes s.cnt ++ H = h) : (frameBegun P h H a as s).header P = h := by
  rw [State.header, ← hlen, ← hh]
  exact bytes_writeAll hwf s.cnt H

/-- The bytes that complete a header: the run goes on behind BEGIN (R156 to R158). -/
theorem fpFinal_header_done {h H : List Byte} {a : Answer} {as : List Answer} (C : List Byte) (hcsp : CsaOk s.csp)
    (hwf : s.scratch.wf) (hst : s.st = .header) (hlen : s.cnt + H.length = P.hdrLen) (ha : s.answers = a :: as)
    (hh : s.scratch.bytes s.cnt ++ H = h) : fpFinal P (H ++ C) s = fpFinal P C (frameBegun P h H a as s) := by
  have hbound : P.hdrLen - s.cnt = H.length := by omega
  have hheader : (headerStored P H s).header P = h := by
    rw [← header_frameBegun a as hwf hlen hh]
    refine header_congr P ?_
    rw [headerStored_eq, hbound, List.take_length]
    rfl
  have hdone : headerDone P a as (headerStored P H s) = frameBegun P h H a as s := by
    simp only [headerDone, hheader, accepted_iff]
    rw [headerStored_eq, hbound, List.take_length, feedCovered_eq_csaUpdate P _ _ hcsp]
    rfl
  have hround : fpRound P (H ++ C) s = .ok (.advanced C (frameBegun P h H a as s)) := by
    rw [fpRound_header_done hst (by rw [List.length_append]; omega) ha, headerStored_append_of_le C (by omega), hdone, hbound,
      List.drop_left]
  exact fpFinal_of_advanced hround

/-- Body bytes short of the body's end (R160). -/
theorem fpFinal_data_more {D : List Byte} (hst : s.st = .data) (hlen : s.cnt + D.length < s.bodyLen P) :
    fpFinal P D s = .ok
      { s with
        csp := csaUpdate s.csp D, cnt := s.cnt + D.length, out := s.out ++ (bodyEvents D).map .event } := by
  rw [fpFinal_of_needMore (fpRound_data_more hst hlen), dataStreamed_eq, List.take_of_length_le (by omega)]

/-- The state behind a body that the bytes `D` complete, for the header `h`: the checksum is compared, COMPLETE and TYPE are out,
the search starts again (R160, R161). -/
def bodyDone (P : Params) (h D : List Byte) (s : State) : State :=
  let v : Bool := csaGet (csaUpdate s.csp D) == P.hdrCksum h
  { s with
    csp := csaUpdate s.csp D, valid := v, cnt := 0, st := .intron
    out := s.out ++ (bodyEvents D).map .event ++ [.event (.complete v), .event (.typeHook (P.hdrType h).toNat v)] }

/-- Body completion behind the last bytes of the body (R161). -/
theorem completeBody_eq_bodyDone (D : List Byte) (n : Nat) (s : State) :
    completeBody P
      { s with csp := csaUpdate s.csp D, cnt := n, out := s.out ++ (bodyEvents D).map .event } = bodyDone P (s.header P) D s :=
  congrArg (fun o => { bodyDone P (s.header P) D s with out := o }) (completeBody_out P _)

/-- With no byte left to come a complete body ends in the record of R161. -/
theorem bodyDone_empty (P : Params) (s : State) : bodyDone P (s.header P) [] s = endBody P s := by
  simp only [bodyDone, bodyEvents, csaUpdate_empty, ↓reduceIte, List.map_nil, List.append_nil]
  rfl

/-- The bytes that end a body, none for a body of length 0 (R160, R161, R163). -/
theorem fpFinal_data_done {D : List Byte} (hst : s.st = .data) (hlen : s.cnt + D.length = s.bodyLen P) :
    fpFinal P D s = .ok (bodyDone P (s.header P) D s) := by
  rw [fpFinal_of_advanced (fpRound_data_done hst hlen.ge), List.drop_eq_nil_of_le (by omega), fpFinal_search_empty rfl,
    dataStreamed_eq, List.take_of_length_le (by omega), completeBody_eq_bodyDone]

/-- Bytes of a rejected frame short of its end (R164). -/
theorem fpFinal_throw_more {D : List Byte} (hst : s.st = .throwAway) (hlen : s.cnt + D.length < s.bodyLen P) :
    fpFinal P D s = .ok { s with cnt := s.cnt + D.length } := fpFinal_of_needMore (fpRound_throw_more hst hlen)

/-- The bytes that end a rejected frame, none for declared length 0 (R165, R166). -/
theorem fpFinal_throw_done {D : List Byte} (hst : s.st = .throwAway) (hlen : s.cnt + D.length = s.bodyLen P) :
    fpFinal P D s = .ok (endDrain s) := by
  rw [fpFinal_of_advanced (fpRound_throw_done hst hlen.ge), List.drop_eq_nil_of_le (by omega), fpFinal_search_empty rfl,
    completeDrain_eq_endDrain]

/-- Behind a begun frame: a frame of length 0 is already complete (R163). -/
def frameEntered (P : Params) (h : List Byte) (a : Answer) (s : State) : State :=
  if (P.hdrBlen h).toNat = 0 then if Accepts P h a then endBody P s else endDrain s else s

/-- With no byte left, a begun frame of length 0 completes and any other asks for more (R160, R163, R164). -/
theorem fpFinal_frameEntered {h : List Byte} {a : Answer} (hheader : s.header P = h) (hcnt : s.cnt = 0)
    (hst : s.st = if Accepts P h a then .data else .throwAway) : fpFinal P [] s = .ok (frameEntered P h a s) := by
  have hbody : s.bodyLen P = (P.hdrBlen h).toNat := by rw [State.bodyLen, hheader]
  by_cases hzero : (P.hdrBlen h).toNat = 0
  · have hdone : s.cnt + ([] : List Byte).length = s.bodyLen P := by rw [hbody, hzero, hcnt]; rfl
    rw [frameEntered, if_pos hzero]
    by_cases hacc : Accepts P h a
    · rw [if_pos hacc] at hst ⊢
      rw [fpFinal_data_done hst hdone, bodyDone_empty]
    · rw [if_neg hacc] at hst ⊢
      exact fpFinal_throw_done hst hdone
  · have hmore : s.cnt + ([] : List Byte).length < s.bodyLen P := by
      rw [hbody, hcnt]
      exact Nat.pos_of_ne_zero hzero
    rw [frameEntered, if_neg hzero]
    by_cases hacc : Accepts P h a
    · rw [if_pos hacc] at hst
      exact (fpFinal_data_more hst hmore).trans (by simp [bodyEvents])
    · rw [if_neg hacc] at hst
      exact fpFinal_throw_more hst hmore

/-- A payload that just completes a header (R157, R163). -/
theorem fpFinal_header_last {h H : List Byte} {a : Answer} {as : List Answer} (hcsp : CsaOk s.csp) (hwf : s.scratch.wf)
    (hst : s.st = .header) (hlen : s.cnt + H.length = P.hdrLen) (ha : s.answers = a :: as)
    (hh : s.scratch.bytes s.cnt ++ H = h) :
    fpFinal P H s = .ok (frameEntered P h a (frameBegun P h H a as s)) := by
  have hdone := fpFinal_header_done [] hcsp hwf hst hlen ha hh
  rw [List.append_nil] at hdone
  rw [hdone]
  exact fpFinal_frameEntered (header_frameBegun a as hwf hlen hh) rfl rfl

end

/-! The statements about single transitions. -/

/-- Settles O31, by the cases of a round: each needs more only below its state's bound, and advances to the next state. -/
theorem roundNeedsMoreOrAdvances : Obligations.RoundNeedsMoreOrAdvances := by
  intro P B s r hr
  cases roundCase_of_eq hr with
  | searching k hst hstep =>
    exact ⟨rfl, rfl, fun _ hlen hmpos => stepIntron_mpos_lt hlen hmpos hstep, by simp [hst], by simp [hst]⟩
  | frameFound u b rest hst hB => exact ⟨⟨u ++ [b], by simp [hB]⟩, by simp [hst]⟩
  | headerMore hst hlen =>
    refine ⟨rfl, rfl, by simp [hst], fun _ => ?_, by simp [hst]⟩
    rw [headerStored_eq, List.take_of_length_le (by omega)]
    exact hlen
  | headerDone a as hst =>
    refine ⟨List.drop_suffix _ _, ?_⟩
    simp only [headerDone, hst]
    split <;> simp
  | dataMore hst hlen =>
    refine ⟨rfl, dataStreamed_st P B s, by simp [hst], by simp [hst], fun _ => ?_⟩
    rw [dataStreamed_eq, List.take_of_length_le (by omega)]
    exact hlen
  | dataDone hst => exact ⟨List.drop_suffix _ _, by simp [hst]⟩
  | drainMore hst hlen => exact ⟨rfl, rfl, by simp [hst], by simp [hst], fun _ => hlen⟩
  | drainDone hst => exact ⟨List.drop_suffix _ _, by simp [hst]⟩

/-- Settles O34: the byte starts a frame, and its header, never of length 0, asks for more. -/
theorem fullMatchStartsFrame : Obligations.FullMatchStartsFrame := by
  intro P s b hst hmpos hb
  rw [fpProcess_of_fpFinal (fpFinal_full_match hst hmpos hb)]
  simp [answerOk, respond, startFrame, emit, csaReset, Csa.zero]

/-- Settles O38: the header takes every byte, and what scratch reads back is `read_writeAll`. -/
theorem headerBytesAreStored : Obligations.HeaderBytesAreStored := by
  intro P s B hs hst hlen
  obtain ⟨-, hcsp, -, ⟨hwf, -⟩, -⟩ := hs
  exact ⟨s.scratch.writeAll s.cnt B, fpProcess_of_fpFinal (fpFinal_header_more hcsp hst hlen), read_writeAll hwf s.cnt B⟩

/-- Settles O39: behind BEGIN a body or drain of nonzero length asks for more. -/
theorem headerCompletionAsksHandler : Obligations.HeaderCompletionAsksHandler := by
  intro P s H a as hs hst hlen ha h hne
  obtain ⟨-, hcsp, -, ⟨hwf, -⟩, -⟩ := hs
  refine ⟨s.scratch.writeAll s.cnt H, header_frameBegun a as hwf hlen rfl, ?_⟩
  rw [fpProcess_of_fpFinal (fpFinal_header_last hcsp hwf hst hlen ha (h := h) rfl), frameEntered, if_neg hne]
  simp [answerOk, respond, frameBegun]

/-- Settles O40: behind BEGIN a body or drain of length 0 is complete before its first byte. -/
theorem zeroLengthFrameCompletes : Obligations.ZeroLengthFrameCompletes := by
  intro P s H a as hs hst hlen ha h hzero csp v
  obtain ⟨-, hcsp, -, ⟨hwf, -⟩, -⟩ := hs
  have hheader : (frameBegun P h H a as s).header P = h := header_frameBegun a as hwf hlen rfl
  refine ⟨s.scratch.writeAll s.cnt H, hheader, ?_⟩
  rw [fpProcess_of_fpFinal (fpFinal_header_last hcsp hwf hst hlen ha (h := h) rfl), frameEntered, if_pos hzero]
  by_cases hacc : Accepts P h a
  · rw [if_pos hacc, if_pos hacc, ← bodyDone_empty, hheader]
    simp [answerOk, respond, bodyDone, bodyEvents, frameBegun, csp, v]
  · rw [if_neg hacc, if_neg hacc]
    simp [answerOk, respond, frameBegun, endDrain, csp]

/-- Settles O41: a slice of the body that is not empty goes out as one BODY. -/
theorem bodyBytesAreStreamed : Obligations.BodyBytesAreStreamed := by
  intro P s D hst hne hlen
  rw [fpProcess_of_fpFinal (fpFinal_data_more hst hlen)]
  simp [answerOk, respond, bodyEvents, hne]

/-- Settles O42: as O41, then the record of body completion. -/
theorem bodyCompletionReports : Obligations.BodyCompletionReports := by
  intro P s D hst hne hlen v
  rw [fpProcess_of_fpFinal (fpFinal_data_done hst hlen)]
  have hv : v = (csaGet (csaUpdate s.csp D) == P.hdrCksum (s.header P)) := rfl
  simp [answerOk, respond, bodyDone, bodyEvents, hne, hv, State.tag]

/-- Settles O43: a drain reads none of its bytes. -/
theorem drainOnlyCounts : Obligations.DrainOnlyCounts := by
  intro P s D hst
  refine ⟨fun hlen => fpProcess_of_fpFinal (fpFinal_throw_more hst hlen), fun hlen => ?_⟩
  rw [fpProcess_of_fpFinal (fpFinal_throw_done hst hlen)]
  simp [answerOk, respond, endDrain]

end Sys2Proof.Machine
end

section
/-! Whole frames through the parser (R167, R170): the search hands over behind the pattern, the header and the body or the
drain are one round each, and a stream cut anyhow is followed by `fpCalls_sameResult`. -/

namespace Sys2Proof.Machine

/-! The search (R152, R153, R171). -/

/-- A position whose pattern byte has just been compared equal: the pattern up to it ends the bytes matched so far. -/
theorem take_comparePos_suffix {s : State} {b : Byte} (h : s.intron[comparePos s b]? = some b) :
    s.intron.take (comparePos s b + 1) <:+ s.intron.take s.mpos ++ [b] := by
  have hpos : s.intron.take (comparePos s b) <:+ s.intron.take s.mpos := by
    unfold comparePos
    split
    · exact List.suffix_rfl
    · exact List.nil_suffix
  obtain ⟨w, hw⟩ := hpos
  exact ⟨w, by rw [List.take_add_one, h, ← List.append_assoc, hw]; rfl⟩

/-- What ends a sequence, whose end ends what came before, ends the whole. -/
theorem suffix_append_cons {α : Type} {x y z u : List α} {b : α} (hx : x <:+ y ++ [b]) (hz : z <:+ x ++ u) :
    z <:+ y ++ b :: u := by
  obtain ⟨w, hw⟩ := hx
  exact hz.trans ⟨w, by rw [← List.append_assoc, hw, List.append_assoc]; rfl⟩

/-- A full match is reported only behind the pattern (R171). -/
theorem stepIntron_advanced_suffix {P : Params} {B rest : List Byte} {s t : State} (hlen : s.intron.length = P.intronLen)
    (h : stepIntron P B s = .advanced rest t) : ∃ u, B = u ++ rest ∧ s.intron <:+ s.intron.take s.mpos ++ u := by
  induction B generalizing s with
  | nil => cases h
  | cons b bs ih =>
    by_cases hmatch : s.intron[comparePos s b]? = some b
    · have hsuffix := take_comparePos_suffix hmatch
      by_cases hfull : comparePos s b + 1 = P.intronLen
      · simp only [stepIntron, hmatch, hfull, ↓reduceIte, Round.advanced.injEq] at h
        rw [hfull, ← hlen, List.take_length] at hsuffix
        exact ⟨[b], by rw [h.1]; rfl, hsuffix⟩
      · simp only [stepIntron, hmatch, hfull, ↓reduceIte] at h
        obtain ⟨u, hbs, hu⟩ := ih (s := { s with mpos := comparePos s b + 1 }) hlen h
        exact ⟨b :: u, by rw [hbs]; rfl, suffix_append_cons hsuffix hu⟩
    · simp only [stepIntron, hmatch, ↓reduceIte] at h
      obtain ⟨u, hbs, hu⟩ := ih (s := { s with mpos := 0 }) hlen h
      exact ⟨b :: u, by rw [hbs]; rfl, suffix_append_cons List.nil_suffix hu⟩

/-- The rest of the pattern completes it. -/
theorem stepIntron_rest_of_pattern {P : Params} {p : List Byte} {s : State} (R : List Byte)
    (hlen : s.intron.length = P.intronLen) (hp : s.intron.drop s.mpos = p) (hne : p ≠ []) :
    stepIntron P (p ++ R) s = .advanced R (startFrame s) := by
  induction p generalizing s with
  | nil => exact absurd rfl hne
  | cons b p ih =>
    have hb : s.intron[s.mpos]? = some b := by rw [← List.head?_drop, hp]; rfl
    have htail : s.intron.drop (s.mpos + 1) = p := by rw [← List.tail_drop, hp]; rfl
    have hpos : comparePos s b = s.mpos := if_pos hb
    have hcount := congrArg List.length htail
    rw [List.length_drop] at hcount
    cases p with
    | nil =>
      obtain ⟨hinside, -⟩ := List.getElem?_eq_some_iff.1 hb
      have hfull : s.mpos + 1 = P.intronLen := by
        rw [List.length_nil] at hcount
        omega
      simp [stepIntron, hpos, hb, hfull]
    | cons c p =>
      have hmore : s.mpos + 1 ≠ P.intronLen := by
        rw [List.length_cons] at hcount
        omega
      have hstep : stepIntron P (b :: c :: p ++ R) s = stepIntron P (c :: p ++ R) { s with mpos := s.mpos + 1 } := by
        simp [stepIntron, hpos, hb, hmore]
      rw [hstep, ih (s := { s with mpos := s.mpos + 1 }) hlen htail (by simp)]
      rfl

/-- A byte that is compared at position 0 meets the search as a fresh one would. -/
theorem stepIntron_of_comparePos_zero {P : Params} {b : Byte} {s : State} (bs : List Byte) (h : comparePos s b = 0) :
    stepIntron P (b :: bs) s = stepIntron P (b :: bs) { s with mpos := 0 } := by
  have hfresh : comparePos { s with mpos := 0 } b = 0 := by simp [comparePos]
  simp only [stepIntron, h, hfresh]
  rfl

/-- The pattern is found from position 0, and from a position whose byte differs from the pattern's first. -/
theorem stepIntron_pattern {P : Params} {s : State} (R : List Byte) (hlen : s.intron.length = P.intronLen)
    (hfirst : s.mpos = 0 ∨ s.intron[s.mpos]? ≠ s.intron[0]?) :
    stepIntron P (s.intron ++ R) s = .advanced R (startFrame s) := by
  have hne : s.intron ≠ [] := List.ne_nil_of_length_pos (hlen ▸ intronLen_pos P)
  have hfresh : stepIntron P (s.intron ++ R) { s with mpos := 0 } = .advanced R (startFrame s) :=
    stepIntron_rest_of_pattern (s := { s with mpos := 0 }) R hlen rfl hne
  obtain ⟨b, p, hbp⟩ := List.exists_cons_of_ne_nil hne
  have hzero : comparePos s b = 0 := by
    have hb : s.intron[0]? = some b := by rw [hbp]; rfl
    rcases hfirst with hmpos | hdiffers
    · simp [comparePos, hmpos]
    · exact if_neg (hb ▸ hdiffers)
  rw [hbp, List.cons_append, stepIntron_of_comparePos_zero _ hzero, ← List.cons_append, ← hbp, hfresh]

/-- After garbage that holds no intron of its own, with a pattern whose first byte does not recur in it, the pattern is found
(R170, R171). -/
theorem stepIntron_garbage_pattern {P : Params} {G : List Byte} {s : State} (R : List Byte)
    (hlen : s.intron.length = P.intronLen) (hmpos : s.mpos = 0) (hunique : ∀ j, 0 < j → s.intron[j]? ≠ s.intron[0]?)
    (hclean : ∀ u v, G ++ s.intron = u ++ s.intron ++ v → v = []) :
    stepIntron P (G ++ s.intron ++ R) s = .advanced R (startFrame s) := by
  rcases stepIntron_cases P G s with ⟨k, hsearch⟩ | ⟨u, b, rest, -, hfound⟩
  · rw [List.append_assoc, stepIntron_append_needMore _ hsearch]
    exact stepIntron_pattern (s := { s with mpos := k }) R hlen (k.eq_zero_or_pos.imp_right (hunique k))
  · obtain ⟨u, hG, hsuffix⟩ := stepIntron_advanced_suffix hlen hfound
    obtain ⟨w, hw⟩ : s.intron <:+ u := by rwa [hmpos] at hsuffix
    have hnone : rest ++ s.intron = [] := hclean w _ (by rw [hG, ← hw]; simp only [List.append_assoc])
    have hempty := (List.append_eq_nil_iff.1 hnone).2
    rw [hempty] at hlen
    exact absurd hlen (intronLen_pos P).ne

/-! The frame behind the pattern. -/

section
variable {P : Params} {s : State} {h D : List Byte} {a : Answer} {as : List Answer}

/-- The header of a fresh frame (R156 to R158). -/
theorem fpFinal_startFrame_header (D : List Byte) (hlen : h.length = P.hdrLen) (ha : s.answers = a :: as) :
    fpFinal P (h ++ D) (startFrame s) = fpFinal P D (frameBegun P h h a as (startFrame s)) :=
  fpFinal_header_done D Csa.zero_ok Memory.wf_nil rfl ((Nat.zero_add _).trans hlen) ha rfl

/-- Its header stands in scratch. -/
theorem header_frameBegun_startFrame (a : Answer) (as : List Answer) (hlen : h.length = P.hdrLen) :
    (frameBegun P h h a as (startFrame s)).header P = h :=
  header_frameBegun a as Memory.wf_nil ((Nat.zero_add _).trans hlen) rfl

/-- Its body or drain is as long as the bytes left. -/
theorem cnt_add_length_eq_bodyLen (a : Answer) (as : List Answer) (hlen : h.length = P.hdrLen)
    (hD : D.length = (P.hdrBlen h).toNat) :
    (frameBegun P h h a as (startFrame s)).cnt + D.length = (frameBegun P h h a as (startFrame s)).bodyLen P := by
  rw [State.bodyLen, header_frameBegun_startFrame a as hlen, ← hD]
  exact Nat.zero_add _

/-- An accepted frame behind the pattern ends with its body (R161, R163). -/
theorem fpFinal_accepted_frame (hlen : h.length = P.hdrLen) (hD : D.length = (P.hdrBlen h).toNat) (hacc : Accepts P h a)
    (ha : s.answers = a :: as) :
    fpFinal P (h ++ D) (startFrame s) = .ok (bodyDone P h D (frameBegun P h h a as (startFrame s))) := by
  rw [fpFinal_startFrame_header D hlen ha, fpFinal_data_done (if_pos hacc) (cnt_add_length_eq_bodyLen a as hlen hD),
    header_frameBegun_startFrame a as hlen]

/-- A rejected frame behind the pattern ends with its drain (R165, R166). -/
theorem fpFinal_rejected_frame (hlen : h.length = P.hdrLen) (hD : D.length = (P.hdrBlen h).toNat) (hrej : ¬ Accepts P h a)
    (ha : s.answers = a :: as) :
    fpFinal P (h ++ D) (startFrame s) = .ok (endDrain (frameBegun P h h a as (startFrame s))) := by
  rw [fpFinal_startFrame_header D hlen ha, fpFinal_throw_done (if_neg hrej) (cnt_add_length_eq_bodyLen a as hlen hD)]

end

/-! Streams cut anyhow. -/

/-- What went out after a common beginning are the same events. -/
theorem events_unique {o out : List Output} {es es' : List Event} (h : out = o ++ es.map .event)
    (h' : out = o ++ es'.map .event) : es = es' :=
  List.map_injective_iff.2 (fun _ _ => Output.event.inj) (List.append_cancel_left (h.symm.trans h'))

/-- A stream cut anyhow ends with the registers and the joined events of its one run (R144). -/
theorem fpCalls_of_fpFinal {P : Params} {Bs : List (List Byte)} {s u : State} {es : List Event} (hs : Inv P s)
    (hrun : fpFinal P Bs.flatten s = .ok u) (hout : u.out = s.out ++ es.map .event) :
    ∃ (t : State) (evs : List Event), fpCalls P Bs s = .ok t ∧ SameButOut u t ∧ t.out = s.out ++ evs.map .event
      ∧ joinBodies evs = joinBodies es := by
  have hsame := fpCalls_sameResult Bs s hs
  rw [hrun] at hsame
  generalize fpCalls P Bs s = r at hsame
  cases hsame with
  | done _ t es' evs hregs hout' ht hjoin =>
    obtain rfl := events_unique hout hout'
    exact ⟨t, evs, rfl, hregs, ht, hjoin.symm⟩

/-- The checksum of the covered header bytes and the body, against a field, is the closed form against its number (R111). -/
theorem csaGet_beq_eq (X D : List Byte) (field : Word32) :
    (csaGet (csaUpdate (csaUpdate Csa.zero X) D) == field) = decide (fletcher (X ++ D) = field.toNat) := by
  rw [← csaUpdate_append Csa.zero_ok, ← csaGet_csaUpdate_zero, beq_eq_decide, decide_eq_decide]
  exact BitVec.toNat_inj.symm

/-- The events of an accepted frame (R170). -/
def frameEvents (P : Params) (h D : List Byte) (v : Bool) : List Event :=
  [Event.resetFrame, .beginFrame h] ++ bodyEvents D ++ [Event.complete v, .typeHook (P.hdrType h).toNat v]

/-- A frame holds at most one BODY, so there is nothing to join. -/
theorem joinBodies_frameEvents (P : Params) (h D : List Byte) (v : Bool) :
    joinBodies (frameEvents P h D v) = frameEvents P h D v := by
  cases D <;> rfl

/-- Behind a found pattern an accepted frame is delivered exactly once (R170). -/
theorem fpCalls_accepted_frame {P : Params} {s : State} {h D : List Byte} {a : Answer} {as : List Answer}
    {Bs : List (List Byte)} (hs : Inv P s) (hst : s.st = .intron) (hlen : h.length = P.hdrLen)
    (hD : D.length = (P.hdrBlen h).toNat) (hacc : Accepts P h a) (ha : s.answers = a :: as)
    (hfound : stepIntron P Bs.flatten s = .advanced (h ++ D) (startFrame s)) :
    let v : Bool := decide (fletcher (covered P 0 h ++ D) = (P.hdrCksum h).toNat)
    ∃ (t : State) (evs : List Event), fpCalls P Bs s = .ok t
      ∧ t.out = s.out ++ evs.map .event
      ∧ joinBodies evs = frameEvents P h D v
      ∧ t.st = .intron ∧ t.mpos = 0 ∧ t.cnt = 0 ∧ t.valid = v ∧ t.answers = as
      ∧ t.csh = s.csh ∧ t.intron = s.intron := by
  intro v
  have hrun := (fpFinal_frameFound hst hfound).trans (fpFinal_accepted_frame hlen hD hacc ha)
  have hv : (csaGet (csaUpdate (csaUpdate Csa.zero (covered P 0 h)) D) == P.hdrCksum h) = v := csaGet_beq_eq _ _ _
  have hout : (bodyDone P h D (frameBegun P h h a as (startFrame s))).out
      = s.out ++ (frameEvents P h D v).map .event := by
    simp [bodyDone, frameBegun, frameEvents, hv]
  obtain ⟨t, evs, hcalls, hregs, ht, hjoin⟩ := fpCalls_of_fpFinal hs hrun hout
  have hevents : joinBodies evs = frameEvents P h D v := hjoin.trans (joinBodies_frameEvents P h D v)
  exact ⟨t, evs, hcalls, ht, hevents, (congrArg State.st hregs).symm, (congrArg State.mpos hregs).symm,
    (congrArg State.cnt hregs).symm, (congrArg State.valid hregs).symm.trans hv, (congrArg State.answers hregs).symm,
    (congrArg State.csh hregs).symm, (congrArg State.intron hregs).symm⟩

/-- Settles O46: from position 0 the pattern is found, and behind it the frame is delivered. -/
theorem acceptedFrameIsDelivered : Obligations.AcceptedFrameIsDelivered := by
  intro P s h D a as Bs hs hst hmpos hlen hD hacc ha hBs
  have hfound : stepIntron P Bs.flatten s = .advanced (h ++ D) (startFrame s) := by
    rw [hBs, List.append_assoc]
    exact stepIntron_pattern _ hs.midRun.intron (.inl hmpos)
  exact fpCalls_accepted_frame hs hst hlen hD hacc ha hfound

/-- Settles O47: the search passes the garbage and finds the pattern behind it (`stepIntron_garbage_pattern`), and behind that
the frame is delivered. -/
theorem resynchronisesAfterGarbage : Obligations.ResynchronisesAfterGarbage := by
  intro P s G h D a as Bs hs hst hmpos hlen hD hacc ha hunique hclean hBs v
  have hfound : stepIntron P Bs.flatten s = .advanced (h ++ D) (startFrame s) := by
    rw [hBs, List.append_assoc _ h D]
    exact stepIntron_garbage_pattern _ hs.midRun.intron hmpos hunique hclean
  obtain ⟨t, evs, hcalls, hout, hevents, hsearch, hpos, -, hvalid, -⟩ :=
    fpCalls_accepted_frame hs hst hlen hD hacc ha hfound
  exact ⟨t, evs, hcalls, hout, hevents, hsearch, hpos, hvalid⟩

/-! Joined events. -/

/-- A BODY in front stays a BODY in front. -/
theorem joinBodies_body_cons (d : List Byte) (es : List Event) :
    ∃ d' es', joinBodies (.body d :: es) = .body d' :: es' := by
  unfold joinBodies
  split
  · exact ⟨_, _, rfl⟩
  · exact ⟨d, _, rfl⟩

/-- Events that join to a sequence without BODY are that sequence. -/
theorem eq_of_joinBodies_eq {es es' : List Event} (h : joinBodies es = es') (hbody : ∀ d, .body d ∉ es') : es = es' := by
  induction es generalizing es' with
  | nil => exact h
  | cons e es ih =>
    subst h
    cases e with
    | body d =>
      obtain ⟨d', es', hfirst⟩ := joinBodies_body_cons d es
      exact absurd (hfirst ▸ List.mem_cons_self) (hbody d')
    | resetFrame | beginFrame | complete | typeHook | invalid =>
      exact congrArg (_ :: ·) (ih rfl fun d hd => hbody d (List.mem_cons_of_mem _ hd))

/-- Settles O48: from position 0 the pattern is found, behind BEGIN the drain takes the whole rest, and none of the events is a
BODY, so joining leaves them as they are. -/
theorem rejectedFrameIsDrained : Obligations.RejectedFrameIsDrained := by
  intro P s h D a as Bs hs hst hmpos hlen hD hrej ha hBs
  have hfound : stepIntron P Bs.flatten s = .advanced (h ++ D) (startFrame s) := by
    rw [hBs, List.append_assoc]
    exact stepIntron_pattern _ hs.midRun.intron (.inl hmpos)
  have hrun := (fpFinal_frameFound hst hfound).trans (fpFinal_rejected_frame hlen hD hrej ha)
  have hout : (endDrain (frameBegun P h h a as (startFrame s))).out = s.out
      ++ [Event.resetFrame, .beginFrame h, .invalid].map .event := by
    simp [endDrain, frameBegun]
  obtain ⟨t, evs, hcalls, hregs, ht, hjoin⟩ := fpCalls_of_fpFinal hs hrun hout
  obtain rfl := eq_of_joinBodies_eq (hjoin.trans rfl) (es' := [.resetFrame, .beginFrame h, .invalid]) (by simp)
  exact ⟨t, hcalls, ht, (congrArg State.csp hregs).symm, (congrArg State.st hregs).symm, (congrArg State.mpos hregs).symm,
    (congrArg State.cnt hregs).symm, (congrArg State.valid hregs).symm, (congrArg State.answers hregs).symm⟩

end Sys2Proof.Machine
end

section
/-! FP.PROCESS against its bytes one at a time (R169): a one-byte run is FP_BYTE, so the fold of FP_BYTE is the stream cut into
single bytes, and a run in one piece has no adjacent BODY events. -/

namespace Sys2Proof.Machine

/-! A run of one byte is FP_BYTE. -/

section
variable {P : Params} {s : State} (b : Byte)

/-- A body completed by one byte. -/
theorem bodyDone_singleton : bodyDone P (s.header P) [b] s =
    endBody P { s with csp := csaUpdate s.csp [b], cnt := s.cnt + 1, out := s.out ++ [.event (.body [b])] } := rfl

/-- The one difference in form: FP_BYTE tests `mpos` before it tries position 0 again, where the search compares once (R152). -/
theorem fpByte_intron (hs : Inv P s) (hst : s.st = .intron) : fpByte P b s = fpFinal P [b] s := by
  obtain ⟨hmpos, -⟩ := hs.midRun.searching hst
  have hgoOn (k : Nat) (h : stepIntron P [b] s = .needMore [] { s with mpos := k }) :
      fpFinal P [b] s = .ok { s with mpos := k } := fpFinal_of_needMore (by rw [fpRound_intron hst, h])
  by_cases hmatch : s.intron[s.mpos]? = some b
  · by_cases hfull : s.mpos + 1 = P.intronLen
    · rw [fpFinal_full_match hst hfull hmatch]
      simp only [fpByte, hst, hmatch, hfull, ↓reduceIte]
      rfl
    · rw [hgoOn (s.mpos + 1) (by simp [stepIntron, comparePos, hmatch, hfull])]
      simp [fpByte, hst, hmatch, hfull]
  · by_cases hfirst : s.intron[0]? = some b
    · have hpos : 0 < s.mpos := Nat.pos_of_ne_zero fun hzero => hmatch (hzero ▸ hfirst)
      have hshort : 0 + 1 ≠ P.intronLen := by omega
      rw [hgoOn 1 (by simp [stepIntron, comparePos, hmatch, hfirst, hshort])]
      simp [fpByte, hst, hmatch, hfirst, hpos]
    · rw [hgoOn 0 (by simp [stepIntron, comparePos, hmatch, hfirst])]
      simp [fpByte, hst, hmatch, hfirst]

/-- One header byte in CSP (R156). -/
theorem csaUpdate_covered_singleton (P : Params) (A : Csa) (a : Nat) :
    csaUpdate A (covered P a [b]) = if P.hdrCov a then csaUpdate A [b] else A := by
  rw [covered]
  split <;> rfl

/-- FP_BYTE at the byte that completes a header. -/
theorem fpByte_header_done {h : List Byte} {a : Answer} {as : List Answer} (hwf : s.scratch.wf) (hst : s.st = .header)
    (hlen : s.cnt + 1 = P.hdrLen) (ha : s.answers = a :: as) (hh : s.scratch.bytes s.cnt ++ [b] = h) :
    fpByte P b s = .ok (frameEntered P h a (frameBegun P h [b] a as s)) := by
  have hbytes : (s.scratch.write s.cnt b).bytes P.hdrLen = h := by
    rw [← hlen, ← hh]
    exact bytes_writeAll hwf s.cnt [b]
  simp only [fpByte, hst, ha, State.header, hbytes, ← csaUpdate_covered_singleton, frameEntered, hlen, lt_irrefl, ↓reduceIte]
  split
  · split <;> rfl
  · rfl

theorem fpByte_header (hs : Inv P s) (hst : s.st = .header) : fpByte P b s = fpFinal P [b] s := by
  obtain ⟨-, hcsp, -, ⟨hwf, -⟩, -, hheader, -⟩ := hs
  obtain ⟨-, hcnt, -⟩ := hheader hst
  rcases Nat.lt_or_eq_of_le (Nat.succ_le_of_lt hcnt) with hmore | hdone
  · rw [fpFinal_header_more (B := [b]) hcsp hst hmore, csaUpdate_covered_singleton]
    simp only [fpByte, hst]
    exact if_pos hmore
  · cases ha : s.answers with
    | nil =>
      rw [fpFinal_of_error (fpRound_header_stuck (B := [b]) hst hdone.ge ha)]
      simp only [fpByte, hst, ha]
      exact if_neg hdone.not_lt
    | cons a as => rw [fpByte_header_done b hwf hst hdone ha rfl, fpFinal_header_last (H := [b]) hcsp hwf hst hdone ha rfl]

theorem fpByte_data (hs : Inv P s) (hst : s.st = .data) : fpByte P b s = fpFinal P [b] s := by
  obtain ⟨-, -, -, -, -, -, hdata, -⟩ := hs
  obtain ⟨-, hcnt, -⟩ := hdata hst
  rcases Nat.lt_or_eq_of_le (Nat.succ_le_of_lt hcnt) with hmore | hdone
  · rw [fpFinal_data_more (D := [b]) hst hmore]
    simp only [fpByte, hst]
    exact if_pos hmore
  · rw [fpFinal_data_done (D := [b]) hst hdone, bodyDone_singleton]
    simp only [fpByte, hst]
    exact if_neg hdone.not_lt

theorem fpByte_throwAway (hs : Inv P s) (hst : s.st = .throwAway) : fpByte P b s = fpFinal P [b] s := by
  obtain ⟨-, -, -, -, -, -, -, hdrain⟩ := hs
  obtain ⟨-, hcnt⟩ := hdrain hst
  rcases Nat.lt_or_eq_of_le (Nat.succ_le_of_lt hcnt) with hmore | hdone
  · rw [fpFinal_throw_more (D := [b]) hst hmore]
    simp only [fpByte, hst]
    exact if_pos hmore
  · rw [fpFinal_throw_done (D := [b]) hst hdone]
    simp only [fpByte, hst]
    exact if_neg hdone.not_lt

/-- A run over one byte is FP_BYTE, in each state (R169). -/
theorem fpByte_eq_fpFinal (hs : Inv P s) : fpByte P b s = fpFinal P [b] s := by
  cases hst : s.st with
  | intron => exact fpByte_intron b hs hst
  | header => exact fpByte_header b hs hst
  | data => exact fpByte_data b hs hst
  | throwAway => exact fpByte_throwAway b hs hst

end

/-- The fold of FP_BYTE is the stream cut into single bytes. -/
theorem fpBytes_eq_fpCalls {P : Params} (B : List Byte) (s : State) (hs : Inv P s) :
    fpBytes P B s = fpCalls P (B.map fun b => [b]) s := by
  induction B generalizing s with
  | nil => rfl
  | cons b B ih =>
    rw [List.map_cons, fpCalls_cons, fpBytes, fpByte_eq_fpFinal b hs]
    cases h : fpFinal P [b] s with
    | error f => rfl
    | ok t => exact ih t (fpFinal_inv [b] s hs.midRun t h)

/-! The events of a run in one piece are joined. -/

/-- The events of a body's end keep apart from what follows. -/
theorem joinBodies_bodyEvents_complete (D : List Byte) (v : Bool) (tag : Nat) (es : List Event) :
    joinBodies (bodyEvents D ++ [Event.complete v, .typeHook tag v] ++ es)
      = bodyEvents D ++ [Event.complete v, .typeHook tag v] ++ joinBodies es := by
  cases D <;> rfl

/-- What an advancing round gives out keeps apart from what follows; a round that ends the run gives out at most one BODY. -/
theorem fpRound_events_joined {P : Params} {B : List Byte} {s : State} {r : Round} (h : fpRound P B s = .ok r) :
    match r with
    | .needMore _ t => ∃ D, t.out = s.out ++ (bodyEvents D).map .event
    | .advanced _ t => ∃ evs : List Event, t.out = s.out ++ evs.map .event
        ∧ ∀ es, joinBodies (evs ++ es) = evs ++ joinBodies es := by
  cases roundCase_of_eq h with
  | searching | headerMore | drainMore => exact ⟨[], by simp [bodyEvents, headerStored]⟩
  | dataMore => exact ⟨_, by rw [dataStreamed_eq]⟩
  | frameFound => exact ⟨[.resetFrame], rfl, fun _ => rfl⟩
  | headerDone a as => exact ⟨[.beginFrame _], rfl, fun _ => rfl⟩
  | dataDone =>
    obtain ⟨v, tag, hout⟩ : ∃ v tag, (completeBody P (dataStreamed P B s)).out = s.out
        ++ (bodyEvents (B.take (s.bodyLen P - s.cnt)) ++ [Event.complete v, .typeHook tag v]).map .event :=
      ⟨_, _, by rw [completeBody_out, dataStreamed_eq, List.map_append, ← List.append_assoc]; rfl⟩
    exact ⟨_, hout, joinBodies_bodyEvents_complete _ v tag⟩
  | drainDone => exact ⟨[.invalid], rfl, fun _ => rfl⟩

/-- A run gives out no two adjacent BODY events (R160, R189). -/
theorem fpFinal_events_joined {P : Params} (B : List Byte) (s : State) :
    ∀ t, fpFinal P B s = .ok t → ∃ evs : List Event, t.out = s.out ++ evs.map .event ∧ joinBodies evs = evs := by
  induction B, s using fpRound_induction P with
  | stop B s f hr =>
    intro t ht
    rw [fpFinal_of_error hr] at ht
    cases ht
  | needMore B s rest u hr =>
    intro t ht
    rw [fpFinal_of_needMore hr] at ht
    cases ht
    obtain ⟨D, hout⟩ := fpRound_events_joined hr
    exact ⟨bodyEvents D, hout, by cases D <;> rfl⟩
  | advanced B s rest u hr ih =>
    intro t ht
    rw [fpFinal_of_advanced hr] at ht
    obtain ⟨evs, hout, hkeep⟩ := fpRound_events_joined hr
    obtain ⟨es, hout', hjoined⟩ := ih t ht
    exact ⟨evs ++ es, by rw [hout', hout, List.map_append, List.append_assoc], by rw [hkeep, hjoined]⟩

/-- Settles O44: the byte-serial form is the stream cut into single bytes, and the run in one piece has its BODY events
joined already. -/
theorem byteSerialFormAgrees : Obligations.ByteSerialFormAgrees := by
  intro P s B hs
  have hsame := fpCalls_sameResult (B.map fun b => [b]) s hs
  rw [← List.flatMap_def, List.flatMap_singleton', ← fpBytes_eq_fpCalls B s hs] at hsame
  have hjoined := fpFinal_events_joined (P := P) B s
  rw [fpRun_eq_fpFinal]
  generalize fpFinal P B s = r at hsame hjoined
  generalize fpBytes P B s = r' at hsame
  cases hsame with
  | stop f => rfl
  | done t u evs evs' hregs ht hu hjoin =>
    obtain ⟨es, hout, hes⟩ := hjoined t rfl
    obtain rfl := events_unique hout ht
    exact ⟨t, es, evs', rfl, hregs, ht, hu, hes.symm.trans hjoin⟩

end Sys2Proof.Machine
end

section
/-! The hook events (R180 to R189): how a parser state fixes its place in the frame record, how each round's events continue
the record from that place, and the payload bytes of the event packets. -/

namespace Sys2Proof.Machine

/-! Places in a frame record (R189). -/

theorem Phase.run_cons {P : Params} {p q : Phase} {e : Event} (es : List Event) (h : p.next P e = some q) :
    p.run P (e :: es) = q.run P es := by
  simp only [Phase.run, h]

/-- A place reached in two stretches of events is reached by the events of both. -/
theorem Phase.run_append {P : Params} {p q r : Phase} {es es' : List Event} (h : p.run P es = some q)
    (h' : q.run P es' = some r) : p.run P (es ++ es') = some r := by
  induction es generalizing p with
  | nil =>
    cases h
    exact h'
  | cons e es ih =>
    cases hnext : p.next P e with
    | none => simp [Phase.run, hnext] at h
    | some p' =>
      rw [Phase.run_cons _ hnext] at h
      rw [List.cons_append, Phase.run_cons _ hnext, ih h]

/-- The BODY events of a slice, none for no byte, continue a body that has room for it (R185). -/
theorem Phase.run_bodyEvents {P : Params} {h d D : List Byte} (hroom : (d ++ D).length ≤ (P.hdrBlen h).toNat) :
    (Phase.begun h d).run P (bodyEvents D) = some (.begun h (d ++ D)) := by
  by_cases hD : D = []
  · simp [bodyEvents, hD, Phase.run]
  · rw [bodyEvents, if_neg hD]
    exact Phase.run_cons [] (if_pos ⟨hD, hroom⟩)

/-- COMPLETE and TYPE with the recognised tag end the record of a whole body (R186, R187). -/
theorem Phase.run_complete {P : Params} {h d : List Byte} (v : Bool) (hwhole : d.length = (P.hdrBlen h).toNat)
    (htype : P.hdrType h ∈ P.types) :
    (Phase.begun h d).run P [.complete v, .typeHook (P.hdrType h).toNat v] = some .between := by
  have hcomplete : (Phase.begun h d).next P (.complete v) = some (.completed h v) := if_pos hwhole
  have htypeHook : (Phase.completed h v).next P (.typeHook (P.hdrType h).toNat v) = some .between :=
    if_pos ⟨rfl, htype, rfl⟩
  rw [Phase.run_cons _ hcomplete, Phase.run_cons _ htypeHook, Phase.run]

section
variable {P : Params} {p : Phase} {s : State}

theorem Phase.fits_intron (hst : s.st = .intron) : p.fits P s ↔ p = .between := by
  cases p <;> simp [Phase.fits, hst]

theorem Phase.fits_header (hst : s.st = .header) : p.fits P s ↔ p = .opened := by
  cases p <;> simp [Phase.fits, hst]

theorem Phase.fits_data (hst : s.st = .data) :
    p.fits P s ↔ ∃ d, p = .begun (s.header P) d ∧ d.length = s.cnt := by
  cases p <;> simp [Phase.fits, hst]

theorem Phase.fits_throwAway (hst : s.st = .throwAway) : p.fits P s ↔ p = .begun (s.header P) [] := by
  cases p <;> simp [Phase.fits, hst]

end

/-! Every stretch of a run continues the record. -/

/-- From the place `p`, what goes out between `s` and `t` continues the frame record, to a place that fits `t` (R189). -/
def FollowsRecord (P : Params) (p : Phase) (s t : State) : Prop :=
  ∃ (evs : List Event) (q : Phase), t.out = s.out ++ evs.map .event ∧ p.run P evs = some q ∧ q.fits P t

theorem FollowsRecord.trans {P : Params} {p : Phase} {s t u : State} (h : FollowsRecord P p s t)
    (h' : ∀ q : Phase, q.fits P t → FollowsRecord P q t u) : FollowsRecord P p s u := by
  obtain ⟨es, q, hout, hrun, hq⟩ := h
  obtain ⟨es', r, hout', hrun', hr⟩ := h' q hq
  exact ⟨es ++ es', r, by rw [hout', hout, List.map_append, List.append_assoc], Phase.run_append hrun hrun', hr⟩

/-- A stretch without events keeps the place. -/
theorem FollowsRecord.of_silent {P : Params} {p : Phase} {s t : State} (hout : t.out = s.out) (hp : p.fits P t) :
    FollowsRecord P p s t := ⟨[], p, by simp [hout], rfl, hp⟩

section
variable {P : Params} {p : Phase} {s : State}

/-- BEGIN behind a stored header: the FH holds the header and no body byte, whatever it answered (R183). -/
theorem headerDone_followsRecord (B : List Byte) (a : Answer) (as : List Answer) (hst : s.st = .header)
    (hp : p.fits P s) : FollowsRecord P p s (headerDone P a as (headerStored P B s)) := by
  obtain rfl := (Phase.fits_header hst).1 hp
  refine ⟨[.beginFrame _], .begun _ [], rfl, rfl, ?fits⟩
  case fits =>
    cases hacc : accepted P ((headerStored P B s).header P) a with
    | true => exact (Phase.fits_data (by simp [headerDone, hacc])).2 ⟨[], rfl, rfl⟩
    | false => exact (Phase.fits_throwAway (by simp [headerDone, hacc])).2 rfl

/-- The bytes a Data step streams stay within the declared length, and the count follows them (R160, R185). -/
theorem dataStreamed_followsRecord (B : List Byte) (hs : MidRun P s) (hst : s.st = .data) (hp : p.fits P s) :
    FollowsRecord P p s (dataStreamed P B s) := by
  obtain ⟨d, rfl, hd⟩ := (Phase.fits_data hst).1 hp
  obtain ⟨-, hcnt, -⟩ := hs.data hst
  have hroom : (d ++ B.take (s.bodyLen P - s.cnt)).length ≤ s.bodyLen P := by
    rw [List.length_append, List.length_take, hd]
    omega
  have hheader : s.header P = (dataStreamed P B s).header P := header_congr P (by rw [dataStreamed_eq])
  have hlength : (d ++ B.take (s.bodyLen P - s.cnt)).length = (dataStreamed P B s).cnt := by
    rw [List.length_append, hd, dataStreamed_eq]
  exact ⟨_, _, by rw [dataStreamed_eq], Phase.run_bodyEvents hroom,
    (Phase.fits_data ((dataStreamed_st P B s).trans hst)).2 ⟨_, by rw [hheader], hlength⟩⟩

/-- A whole body of an accepted frame ends with COMPLETE and TYPE (R161, R186, R187). -/
theorem completeBody_followsRecord (hs : MidRun P s) (hst : s.st = .data) (hwhole : s.cnt = s.bodyLen P)
    (hp : p.fits P s) : FollowsRecord P p s (completeBody P s) := by
  obtain ⟨d, rfl, hd⟩ := (Phase.fits_data hst).1 hp
  obtain ⟨-, -, htype, -⟩ := hs.data hst
  exact ⟨[.complete _, .typeHook _ _], .between, completeBody_out P s, Phase.run_complete _ (hd.trans hwhole) htype,
    (Phase.fits_intron rfl).2 rfl⟩

/-- INVALID ends the record of a rejected frame, which holds no BODY (R188). -/
theorem completeDrain_followsRecord (hst : s.st = .throwAway) (hp : p.fits P s) :
    FollowsRecord P p s (completeDrain s) := by
  obtain rfl := (Phase.fits_throwAway hst).1 hp
  exact ⟨[.invalid], .between, rfl, rfl, (Phase.fits_intron rfl).2 rfl⟩

/-- Every round continues the record. -/
theorem fpRound_followsRecord {B : List Byte} {r : Round} (hs : MidRun P s) (hp : p.fits P s)
    (hr : fpRound P B s = .ok r) : FollowsRecord P p s r.state := by
  cases roundCase_of_eq hr with
  | searching => exact .of_silent rfl hp
  | headerMore hst =>
    obtain rfl := (Phase.fits_header hst).1 hp
    exact .of_silent rfl ((Phase.fits_header (s := headerStored P B s) hst).2 rfl)
  | drainMore hst =>
    obtain rfl := (Phase.fits_throwAway hst).1 hp
    exact .of_silent rfl ((Phase.fits_throwAway (s := { s with cnt := s.cnt + B.length }) hst).2 rfl)
  | frameFound u b rest hst =>
    obtain rfl := (Phase.fits_intron hst).1 hp
    exact ⟨[.resetFrame], .opened, rfl, rfl, (Phase.fits_header rfl).2 rfl⟩
  | headerDone a as hst => exact headerDone_followsRecord B a as hst hp
  | dataMore hst => exact dataStreamed_followsRecord B hs hst hp
  | dataDone hst hlen =>
    have hwhole : (dataStreamed P B s).cnt = (dataStreamed P B s).bodyLen P := by
      obtain ⟨-, hcnt, -⟩ := hs.data hst
      rw [dataStreamed_eq]
      show s.cnt + (B.take (s.bodyLen P - s.cnt)).length = s.bodyLen P
      rw [List.length_take]
      omega
    exact (dataStreamed_followsRecord B hs hst hp).trans fun _ =>
      completeBody_followsRecord (dataStreamed_midRun B hs hst) ((dataStreamed_st P B s).trans hst) hwhole
  | drainDone hst => exact completeDrain_followsRecord hst hp

end

/-- A run continues the record, round by round (R189). -/
theorem fpFinal_followsRecord {P : Params} (B : List Byte) (s : State) (hs : MidRun P s) (p : Phase)
    (hp : p.fits P s) : ∀ t, fpFinal P B s = .ok t → FollowsRecord P p s t := by
  induction B, s using fpRound_induction P generalizing p with
  | stop B s f hr =>
    intro t ht
    rw [fpFinal_of_error hr] at ht
    cases ht
  | needMore B s rest u hr =>
    intro t ht
    rw [fpFinal_of_needMore hr] at ht
    cases ht
    exact fpRound_followsRecord hs hp hr
  | advanced B s rest u hr ih =>
    intro t ht
    rw [fpFinal_of_advanced hr] at ht
    exact (fpRound_followsRecord hs hp hr).trans fun q hq => ih (fpRound_midRun hs hr) q hq t ht

/-- Settles O49: the run continues the record, and the response neither emits an event nor moves the parser. -/
theorem eventsFollowFrameRecords : Obligations.EventsFollowFrameRecords := by
  intro P p s u B hs hp hu
  obtain ⟨t, hfinal, rfl⟩ := fpProcess_eq_next hu
  obtain ⟨evs, q, hout, hrun, hq⟩ := fpFinal_followsRecord B s hs.midRun p hp t hfinal
  exact ⟨evs, q, by rw [answerOk_out, hout], hrun, hq⟩

/-! Event packets (R180, R181). -/

theorem leBytes_length (n v : Nat) : (leBytes n v).length = n := by
  induction n generalizing v with
  | zero => rfl
  | succ n ih => rw [leBytes, List.length_cons, ih]

/-- A number of at most `n` bytes is recovered from its `n` bytes. -/
theorem leValue_leBytes {n v : Nat} (h : v < 256 ^ n) : leValue (leBytes n v) = v := by
  induction n generalizing v with
  | zero =>
    obtain rfl : v = 0 := by simpa using h
    rfl
  | succ n ih =>
    have hrest : v / 256 < 256 ^ n := Nat.div_lt_of_lt_mul (by rwa [Nat.pow_succ'] at h)
    rw [leBytes, leValue, ih hrest, BitVec.toNat_ofNat]
    exact Nat.mod_add_div v 256

/-- The bytes of a TYPE event's tag hold `TYPE_BITS` bits (R181). -/
theorem two_pow_typeBits_le (P : Params) : 2 ^ P.typeBits ≤ 256 ^ P.typeBytes :=
  calc 2 ^ P.typeBits ≤ 2 ^ (8 * P.typeBytes) := Nat.pow_le_pow_right Nat.two_pos (by rw [Params.typeBytes]; omega)
    _ = 256 ^ P.typeBytes := Nat.pow_mul 2 8 P.typeBytes

/-- Settles O50: code and payload of each event stand in the model as R181 gives them; that the tag is recovered is
`leValue_leBytes`. -/
theorem eventPacketsAreEncoded : Obligations.EventPacketsAreEncoded := by
  intro P
  refine ⟨rfl, fun _ => rfl, fun _ => rfl, fun _ => rfl, fun tag v htag => ?typeHook, rfl⟩
  case typeHook =>
    exact ⟨leBytes P.typeBytes tag, rfl, leBytes_length _ _, leValue_leBytes (htag.trans_le (two_pow_typeBits_le P))⟩

end Sys2Proof.Machine
end

section
/-! Stops and completion of FP.PROCESS (43_handler_hooks.md section 4): the one stop is a header that completes with no BEGIN
answer to come (R193, R200), and a run with answers enough ends, since each further BEGIN needs a byte of its own. -/

namespace Sys2Proof.Machine

/-! The one stop (R193, R200). -/

/-- A round stops only at a header that completes with no answer to come. -/
theorem fpRound_error {P : Params} {B : List Byte} {s : State} {f : Fault} (h : fpRound P B s = .error f) :
    f = .beginUnanswered ∧ s.st = .header ∧ s.answers = [] := by
  cases roundCase_of_eq h with
  | headerStuck hst _ ha => exact ⟨rfl, hst, ha⟩

theorem fpFinal_error {P : Params} (B : List Byte) (s : State) :
    ∀ f, fpFinal P B s = .error f → f = .beginUnanswered := by
  induction B, s using fpRound_induction P with
  | stop B s g hr =>
    intro f h
    rw [fpFinal_of_error hr] at h
    cases h
    exact (fpRound_error hr).1
  | needMore B s rest t hr =>
    intro f h
    rw [fpFinal_of_needMore hr] at h
    cases h
  | advanced B s rest t hr ih =>
    rw [fpFinal_of_advanced hr]
    exact ih

/-- An FP.PROCESS whose run stops, stops with the run's fault. -/
theorem fpProcess_of_fpFinal_error {P : Params} {B : List Byte} {s : State} {f : Fault} (h : fpFinal P B s = .error f) :
    fpProcess P B s = .fault f := by
  rw [fpProcess, fpRun_eq_fpFinal, h]
  rfl

theorem fpProcess_safe (P : Params) (B : List Byte) (s : State) : SafeOutcome (fpProcess P B s) := by
  cases h : fpFinal P B s with
  | ok t =>
    rw [fpProcess_of_fpFinal h]
    trivial
  | error f =>
    rw [fpProcess_of_fpFinal_error h]
    exact fpFinal_error B s f h

theorem exec_safe (i : Instr) (s : State) : SafeOutcome (exec i s) := by
  cases i with
  | csReset | csUpdate | csGet | fpReset | fpSetIntron | fpStatus => trivial
  | fpProcess B => exact fpProcess_safe Config.params B s

/-- Of a step's four cases only running a command can stop. -/
theorem step_safe (s : State) : SafeOutcome (step s) := by
  rcases step_cases s with ⟨-, hs⟩ | ⟨-, -, hs⟩ | ⟨pkt, rest, i, -, -, -, hs⟩ | ⟨pkt, rest, r, -, -, -, hs⟩
  all_goals rw [hs]
  · trivial
  · trivial
  · exact exec_safe i _
  · trivial

theorem exec_fault_fpProcess {i : Instr} {s : State} {f : Fault} (h : exec i s = .fault f) : ∃ B, i = .fpProcess B := by
  cases i with
  | csReset | csUpdate | csGet | fpReset | fpSetIntron | fpStatus => cases h
  | fpProcess B => exact ⟨B, rfl⟩

/-- Settles O12: a run's only error is the unanswered BEGIN of one of its rounds, and no other command has a run. -/
theorem onlyUnansweredBeginStops : Obligations.OnlyUnansweredBeginStops :=
  ⟨exec_safe, step_safe, fun _ _ _ => exec_fault_fpProcess⟩

/-! Completion when the answers are there (R183, R200). -/

/-- Between `s` and `t` only events go out, `n` of them BEGIN, and one answer is taken for each (R183). -/
def BeginsTaken (n : Nat) (s t : State) : Prop :=
  ∃ evs : List Event, t.out = s.out ++ evs.map .event ∧ beginCount evs = n ∧ t.answers = s.answers.drop n

theorem BeginsTaken.of_silent {s t : State} (hout : t.out = s.out) (ha : t.answers = s.answers) : BeginsTaken 0 s t :=
  ⟨[], by simp [hout], rfl, ha⟩

theorem BeginsTaken.trans {m n : Nat} {s t u : State} (h : BeginsTaken m s t) (h' : BeginsTaken n t u) :
    BeginsTaken (m + n) s u := by
  obtain ⟨es, hout, hm, ha⟩ := h
  obtain ⟨es', hout', hn, ha'⟩ := h'
  exact ⟨es ++ es', by rw [hout', hout, List.map_append, List.append_assoc], by rw [beginCount_append, hm, hn],
    by rw [ha', ha, List.drop_drop]⟩

theorem BeginsTaken.answers_length {n : Nat} {s t : State} (h : BeginsTaken n s t) :
    t.answers.length = s.answers.length - n := by
  obtain ⟨-, -, -, ha⟩ := h
  rw [ha, List.length_drop]

theorem beginCount_bodyEvents (D : List Byte) : beginCount (bodyEvents D) = 0 := by
  cases D <;> rfl

theorem dataStreamed_beginsTaken (P : Params) (B : List Byte) (s : State) : BeginsTaken 0 s (dataStreamed P B s) := by
  rw [dataStreamed_eq]
  exact ⟨_, rfl, beginCount_bodyEvents _, rfl⟩

theorem completeBody_beginsTaken (P : Params) (s : State) : BeginsTaken 0 s (completeBody P s) :=
  ⟨[.complete _, .typeHook _ _], completeBody_out P s, rfl, rfl⟩

theorem fpRound_needMore_beginsTaken {P : Params} {B rest : List Byte} {s t : State}
    (h : fpRound P B s = .ok (.needMore rest t)) : BeginsTaken 0 s t := by
  cases roundCase_of_eq h with
  | searching | headerMore | drainMore => exact .of_silent rfl rfl
  | dataMore => exact dataStreamed_beginsTaken P B s

/-- The BEGIN events a state owes before its next search: the one of a header already begun. -/
def FsmState.beginsDue : FsmState → Nat
  | .header => 1
  | .intron | .data | .throwAway => 0

/-- A bound on the BEGIN events still to come: a further frame takes at least one byte, the one that completes its pattern. -/
def beginsLeft (B : List Byte) (s : State) : Nat := B.length + s.st.beginsDue

theorem beginsLeft_le (B : List Byte) (s : State) : beginsLeft B s ≤ B.length + 1 := by
  cases hst : s.st <;> simp [beginsLeft, hst, FsmState.beginsDue]

theorem beginsLeft_drop_le {B : List Byte} {t : State} (n : Nat) (ht : t.st.beginsDue = 0) :
    beginsLeft (B.drop n) t ≤ B.length := by
  rw [beginsLeft, ht, List.length_drop]
  omega

theorem beginsLeft_drop_le_self {B : List Byte} {t : State} (n : Nat) (s : State) (ht : t.st.beginsDue = 0) :
    beginsLeft (B.drop n) t ≤ beginsLeft B s :=
  (beginsLeft_drop_le n ht).trans (Nat.le_add_right _ _)

/-- A round that advances pays for its BEGIN events out of those left. -/
theorem fpRound_advanced_beginsTaken {P : Params} {B rest : List Byte} {s t : State}
    (h : fpRound P B s = .ok (.advanced rest t)) : ∃ n, BeginsTaken n s t ∧ n + beginsLeft rest t ≤ beginsLeft B s := by
  cases roundCase_of_eq h with
  | frameFound u b _ hst hB =>
    refine ⟨0, ⟨[.resetFrame], rfl, rfl, rfl⟩, ?_⟩
    simp only [beginsLeft, hst, hB, startFrame_st, FsmState.beginsDue, List.length_append, List.length_cons]
    omega
  | headerDone a as hst _ ha =>
    have hdue : (headerDone P a as (headerStored P B s)).st.beginsDue = 0 := by
      simp only [headerDone]
      split <;> rfl
    have hleft := beginsLeft_drop_le (B := B) (P.hdrLen - s.cnt) hdue
    have hs : beginsLeft B s = B.length + 1 := by rw [beginsLeft, hst]; rfl
    exact ⟨1, ⟨[.beginFrame _], rfl, rfl, by rw [ha]; rfl⟩, by omega⟩
  | dataDone =>
    exact ⟨0, (dataStreamed_beginsTaken P B s).trans (completeBody_beginsTaken P _),
      (Nat.zero_add _).trans_le (beginsLeft_drop_le_self _ s rfl)⟩
  | drainDone =>
    exact ⟨0, ⟨[.invalid], rfl, rfl, rfl⟩, (Nat.zero_add _).trans_le (beginsLeft_drop_le_self _ s rfl)⟩

/-- A run with an answer for each BEGIN it can emit ends, within that bound. -/
theorem fpFinal_of_answers {P : Params} (B : List Byte) (s : State) (hs : beginsLeft B s ≤ s.answers.length) :
    ∃ t n, fpFinal P B s = .ok t ∧ BeginsTaken n s t ∧ n ≤ beginsLeft B s := by
  induction B, s using fpRound_induction P with
  | stop B s f hr =>
    obtain ⟨-, hst, ha⟩ := fpRound_error hr
    simp [beginsLeft, hst, ha, FsmState.beginsDue] at hs
  | needMore B s rest t hr =>
    exact ⟨t, 0, fpFinal_of_needMore hr, fpRound_needMore_beginsTaken hr, Nat.zero_le _⟩
  | advanced B s rest t hr ih =>
    obtain ⟨m, hround, hm⟩ := fpRound_advanced_beginsTaken hr
    have hanswers := hround.answers_length
    obtain ⟨u, n, hfinal, hrun, hn⟩ := ih (by omega)
    exact ⟨u, m + n, (fpFinal_of_advanced hr).trans hfinal, hround.trans hrun, by omega⟩

/-- Settles O28: the answers cover `beginsLeft`, so the run ends; the rest is the parser's frame and the response. -/
theorem fpProcessCompletes : Obligations.FpProcessCompletes := by
  intro s B hB
  have hleft := beginsLeft_le B s
  obtain ⟨t, n, hfinal, ⟨evs, hout, rfl, ha⟩, hn⟩ := fpFinal_of_answers (P := Config.params) B s (by omega)
  obtain ⟨-, -, -, hcsh, hintron, hrst, hcmd⟩ := fpFinal_frame hfinal
  exact ⟨answerOk t, evs, fpProcess_of_fpFinal hfinal, by rw [answerOk_out, hout], by omega, ha, hcsh, hintron, hrst, hcmd⟩

end Sys2Proof.Machine
end

section
/-! The command port and the written form: single packets and steps (R72, R76, R135, R184, R219), and the line of a command
read back to its packet (R79). -/

namespace Sys2Proof.Machine

/-! Packets written out (R72). -/

/-- Settles O6: each packet is the encoding of its command. -/
theorem writtenPacketsDecode : Obligations.WrittenPacketsDecode := fun _ =>
  ⟨decode_encode (i := .csReset) rfl, decode_encode (i := .csUpdate [0x61, 0x62, 0x63]) rfl,
    decode_encode (i := .fpProcess [0xA5]) rfl, decode_encode (i := .fpStatus) rfl⟩

/-! Single steps and answers. -/

/-- Settles O9: each other case of `step_cases` disagrees with a premise. -/
theorem coreWaitsWithoutPacket : Obligations.CoreWaitsWithoutPacket := by
  intro s hrst hfetch
  rcases step_cases s with ⟨hreset, -⟩ | ⟨-, -, hs⟩ | ⟨pkt, rest, i, -, htaken, -⟩ | ⟨pkt, rest, r, -, htaken, -⟩
  · cases hrst.symm.trans hreset
  · exact hs
  · cases hfetch.symm.trans htaken
  · cases hfetch.symm.trans htaken

/-- Settles O25: the length check fails, and an answer alone goes out. -/
theorem wrongIntronLengthChangesNothing : Obligations.WrongIntronLengthChangesNothing := fun s _ hB =>
  congrArg Host.Outcome.next (fpSetIntron_of_length_ne hB s)

/-- Settles O51: the beat's part is `Answer.accepts_iff` at a beat. -/
theorem onlyBeatOneAccepts : Obligations.OnlyBeatOneAccepts :=
  ⟨fun b => (Answer.accepts_iff (.beat b)).trans (by rw [Answer.beat.injEq]), rfl⟩

/-! One response after the events (R62, R76). -/

/-- Some events go out, then one response. -/
def Answered (evs : List Event) (s t : State) : Prop :=
  ∃ r : Response, t.out = s.out ++ evs.map .event ++ [.response r]

theorem answered_respond (c : Status) (d : List Byte) (s : State) : Answered [] s (respond c d s) :=
  ⟨⟨c, d⟩, by rw [respond_out, List.map_nil, List.append_nil]⟩

/-- A command other than FP.PROCESS gives a response and no event (R76, R180). -/
theorem exec_answered_of_ne {i : Instr} {s t : State} (hi : ∀ B, i ≠ .fpProcess B) (h : exec i s = .next t) :
    Answered [] s t := by
  cases i with
  | csReset | csUpdate | csGet | fpReset | fpStatus =>
    cases h
    exact answered_respond _ _ s
  | fpSetIntron B =>
    cases h
    by_cases hB : B.length = Config.params.intronLen
    · rw [fpSetIntron_of_length hB]
      exact answered_respond _ _ s
    · rw [fpSetIntron_of_length_ne hB]
      exact answered_respond _ _ s
  | fpProcess B => exact absurd rfl (hi B)

/-- FP.PROCESS gives its run's events, then the response (R137). -/
theorem fpProcess_answered {P : Params} {B : List Byte} {s t : State} (h : fpProcess P B s = .next t) :
    ∃ evs, Answered evs s t := by
  obtain ⟨u, hfinal, rfl⟩ := fpProcess_eq_next h
  obtain ⟨evs, hout, -⟩ := fpFinal_frame hfinal
  exact ⟨evs, ⟨.ok, []⟩, by rw [answerOk_out, hout]⟩

/-- A decoded packet has its command's opcode (R72). -/
theorem op_of_decode {P : Params} {pkt : Packet} {i : Instr} (h : decode P pkt = .ok i) : pkt.op = i.opcode.byte :=
  congrArg Packet.op (decodedPacketIsEncoding P pkt i h).1.symm

/-- Settles O10: of the cases of `step_cases` a command and an illegal packet are left; both answer, and only FP.PROCESS, whose
opcode is 0x12, has events. -/
theorem oneResponseAfterAllEvents : Obligations.OneResponseAfterAllEvents := by
  intro s t pkt rest hrst hfetch ht
  suffices h : ∃ evs, Answered evs s t ∧ (pkt.op ≠ 0x12 → evs = []) by
    obtain ⟨evs, ⟨r, hout⟩, hnone⟩ := h
    exact ⟨evs, r, hout, hnone⟩
  rcases step_cases s with ⟨hreset, -⟩ | ⟨-, hwait, -⟩ | ⟨pkt', rest', i, -, hfetch', hdecode, hs⟩
    | ⟨pkt', rest', r, -, hfetch', -, hs⟩
  · cases hrst.symm.trans hreset
  · cases hfetch.symm.trans hwait
  · cases hfetch.symm.trans hfetch'
    rw [hs] at ht
    by_cases hi : ∃ B, i = .fpProcess B
    · obtain ⟨B, rfl⟩ := hi
      obtain ⟨evs, hanswered⟩ := fpProcess_answered ht
      exact ⟨evs, hanswered, fun hop => absurd (op_of_decode hdecode) hop⟩
    · exact ⟨[], exec_answered_of_ne (s := { s with cmd := rest }) (not_exists.1 hi) ht, fun _ => rfl⟩
  · rw [hs] at ht
    cases ht
    exact ⟨[], answered_respond _ _ s, fun _ => rfl⟩

/-! Reading a line: the mnemonic (R79). -/

/-- A mnemonic read off a line stands at its beginning. -/
theorem eq_append_of_afterMnemonic {m cs rest : List Char} (h : afterMnemonic m cs = some rest) : cs = m ++ rest := by
  induction m generalizing cs with
  | nil =>
    rw [afterMnemonic] at h
    split at h
    · cases h
      rfl
    · cases h
  | cons c m ih =>
    cases cs with
    | nil => cases h
    | cons d cs =>
      rw [afterMnemonic] at h
      split at h
      case isTrue hcd => rw [hcd, ih h, List.cons_append]
      case isFalse => cases h

/-- A mnemonic with a break behind it is read off the line. -/
theorem afterMnemonic_append {m rest : List Char} (h : atBreak rest = true) : afterMnemonic m (m ++ rest) = some rest := by
  induction m with
  | nil => exact if_pos h
  | cons c m ih => exact (if_pos rfl).trans ih

theorem mem_opcodeAll (o : Opcode) : o ∈ Opcode.all := by cases o <;> decide

/-- No mnemonic begins another one (R79). -/
theorem mnemonicText_eq_of_begins {o o' : Opcode} (h : mnemonicText o <+: mnemonicText o') : o = o' := by
  have hall : ∀ o ∈ Opcode.all, ∀ o' ∈ Opcode.all, mnemonicText o <+: mnemonicText o' → o = o' := by decide
  exact hall o (mem_opcodeAll o) o' (mem_opcodeAll o') h

/-- A line that begins with one mnemonic is read by no other row. -/
theorem afterMnemonic_eq_none_of_ne {o o' : Opcode} (cs : List Char) (h : o ≠ o') :
    afterMnemonic (mnemonicText o) (mnemonicText o' ++ cs) = none := by
  cases hafter : afterMnemonic (mnemonicText o) (mnemonicText o' ++ cs) with
  | none => rfl
  | some rest =>
    have hline := eq_append_of_afterMnemonic hafter
    rcases List.append_eq_append_iff.1 hline with ⟨w, hw, -⟩ | ⟨w, hw, -⟩
    · exact absurd (mnemonicText_eq_of_begins ⟨w, hw.symm⟩).symm h
    · exact absurd (mnemonicText_eq_of_begins ⟨w, hw.symm⟩) h

/-- A line made of a row's mnemonic and a readable payload is read as that row's packet (R79). -/
theorem parseLine_mnemonic {o : Opcode} {cs : List Char} {B : List Byte} (hbreak : atBreak cs = true)
    (hpayload : parsePayload false cs = some B) : parseLine (mnemonicText o ++ cs) = some ⟨o.byte, B⟩ := by
  obtain ⟨before, after, hall, hnot⟩ := List.eq_append_cons_of_mem (mem_opcodeAll o)
  refine List.findSome?_eq_some_iff.2 ⟨before, o, after, hall, ?own, fun o' ho' => ?others⟩
  case own =>
    rw [afterMnemonic_append hbreak]
    simp only [hpayload, Option.map_some]
  case others =>
    have hne : o' ≠ o := fun heq => hnot (heq ▸ ho')
    rw [afterMnemonic_eq_none_of_ne cs hne]

/-! Reading a line: the payload (R79). -/

/-- What the reader finds at a written digit: its value, and none of the characters it treats apart (R12). -/
theorem hexChar_spec {n : Nat} (h : n < 16) :
    hexValue (hexChar n) = some n ∧ hexChar n ≠ ' ' ∧ hexChar n ≠ ';' ∧ (hexChar n).toNat ≠ 34 := by
  have hall : ∀ n < 16, hexValue (hexChar n) = some n ∧ hexChar n ≠ ' ' ∧ hexChar n ≠ ';' ∧ (hexChar n).toNat ≠ 34 := by
    decide
  exact hall n h

/-- The payload as a line writes it: each byte after a space. -/
def payloadText (B : List Byte) : List Char := B.flatMap fun b => ' ' :: hexByte b

theorem atBreak_payloadText (B : List Byte) : atBreak (payloadText B) = true := by cases B <;> rfl

/-- One written byte with a break behind it is read as that byte. -/
theorem parsePayload_byte {b : Byte} {cs : List Char} (h : atBreak cs = true) :
    parsePayload false (' ' :: (hexByte b ++ cs)) = (parsePayload false cs).map (b :: ·) := by
  have hb := b.isLt
  obtain ⟨hhigh, hspace, hcomment, hquote⟩ := hexChar_spec (n := b.toNat / 16) (by omega)
  obtain ⟨hlow, -⟩ := hexChar_spec (n := b.toNat % 16) (by omega)
  have hvalue : BitVec.ofNat 8 (16 * (b.toNat / 16) + b.toNat % 16) = b := by
    rw [Nat.div_add_mod, BitVec.ofNat_toNat, BitVec.setWidth_eq]
  have hdigits : parsePayload false (' ' :: (hexByte b ++ cs))
      = parsePayload false (hexChar (b.toNat / 16) :: hexChar (b.toNat % 16) :: cs) := by
    simp [hexByte, parsePayload]
  rw [hdigits, parsePayload, if_neg hspace, if_neg hcomment, if_neg hquote, hhigh, hlow]
  simp only [h, if_true, hvalue]

theorem parsePayload_payloadText (B : List Byte) : parsePayload false (payloadText B) = some B := by
  induction B with
  | nil => rfl
  | cons b B ih =>
    have htext : payloadText (b :: B) = ' ' :: (hexByte b ++ payloadText B) := rfl
    rw [htext, parsePayload_byte (atBreak_payloadText B), ih]
    rfl

/-- Settles O7: the line is the mnemonic of the command's row, then its payload's text. -/
theorem writtenLineReadsBack : Obligations.WrittenLineReadsBack := fun i =>
  parseLine_mnemonic (atBreak_payloadText i.payload) (parsePayload_payloadText i.payload)

end Sys2Proof.Machine
end

section
/-! Streams of bytes and their checksum: the cutting of a stream (R109), the five consequences of the closed form (R112), and
the remainder without a divider (R116). -/

namespace Sys2Proof.Machine

/-- Settles O18: one cut is `csaUpdate_append`, and a list of pieces is cut after cut. -/
theorem checksumIsChunkInvariant : Obligations.ChecksumIsChunkInvariant := fun _ Bs hA => foldl_csaUpdate hA Bs

/-! The closed form of special streams (R111, R112). -/

/-- The words before come to count once more for each word behind them (R111). -/
theorem weightedSum_append (ws vs : List Nat) :
    weightedSum (ws ++ vs) = weightedSum ws + vs.length * ws.sum + weightedSum vs := by
  induction ws with
  | nil => simp [weightedSum]
  | cons w ws ih =>
    simp only [List.cons_append, weightedSum, ih, List.length_append, List.sum_cons]
    ring

theorem weightedSum_replicate_zero (n : Nat) : weightedSum (List.replicate n 0) = 0 := by
  induction n with
  | zero => rfl
  | succ n ih => simp [List.replicate_succ, weightedSum, ih]

/-- Both sums of words that are 0 modulo 65535 are 0 modulo 65535. -/
theorem dvd_sums_of_forall_dvd {ws : List Nat} (h : ∀ w ∈ ws, 65535 ∣ w) : 65535 ∣ ws.sum ∧ 65535 ∣ weightedSum ws := by
  refine ⟨List.dvd_sum h, ?_⟩
  induction ws with
  | nil => exact dvd_zero _
  | cons w ws ih =>
    obtain ⟨hw, hws⟩ := List.forall_mem_cons.1 h
    exact (hw.mul_left _).add (ih hws)

theorem padEven_of_even {X : List Byte} (h : X.length % 2 = 0) : padEven X = X := if_neg (by omega)

theorem padEven_of_odd {X : List Byte} (h : X.length % 2 = 1) : padEven X = X ++ [0] := if_pos h

/-- An even stream needs no padding in the closed form (R111). -/
theorem fletcher_of_even {X : List Byte} (h : X.length % 2 = 0) :
    fletcher X = (wordPairs X).sum % 65535 + 65536 * (weightedSum (wordPairs X) % 65535) := by
  rw [fletcher, padEven_of_even h]

theorem wordPairs_replicate_zero (n : Nat) : wordPairs (List.replicate (2 * n) 0) = List.replicate n 0 := by
  induction n with
  | zero => rfl
  | succ n ih => rw [Nat.mul_succ, List.replicate_succ, List.replicate_succ, wordPairs, ih, List.replicate_succ]; rfl

/-- R112(b): a stream of words 0x0000 and 0xFFFF. -/
theorem fletcher_of_zero_words {X : List Byte} (h : ∀ w ∈ wordPairs (padEven X), w = 0 ∨ w = 0xFFFF) : fletcher X = 0 := by
  have hwords : ∀ w ∈ wordPairs (padEven X), 65535 ∣ w := by
    intro w hw
    rcases h w hw with rfl | rfl
    · exact dvd_zero _
    · exact dvd_rfl
  obtain ⟨hsum, hweighted⟩ := dvd_sums_of_forall_dvd hwords
  simp [fletcher, Nat.mod_eq_zero_of_dvd hsum, Nat.mod_eq_zero_of_dvd hweighted]

/-- R112(c): the zero words add nothing to the first sum and the first sum to the second, once each. -/
theorem fletcher_append_zeros {X : List Byte} (n : Nat) (h : X.length % 2 = 0) :
    fletcher (X ++ List.replicate (2 * n) 0)
      = fletcher X % 65536 + 65536 * ((fletcher X / 65536 + n * (fletcher X % 65536)) % 65535) := by
  have hlen : (X ++ List.replicate (2 * n) 0).length % 2 = 0 := by
    rw [List.length_append, List.length_replicate]
    omega
  have hwords : wordPairs (X ++ List.replicate (2 * n) 0) = wordPairs X ++ List.replicate n 0 := by
    rw [wordPairs_append _ h, wordPairs_replicate_zero]
  obtain ⟨a, ha⟩ : ∃ a, (wordPairs X).sum = a := ⟨_, rfl⟩
  obtain ⟨w, hw⟩ : ∃ w, weightedSum (wordPairs X) = w := ⟨_, rfl⟩
  have hlow : fletcher X % 65536 = a % 65535 := by rw [fletcher_of_even h, ha]; omega
  have hhigh : fletcher X / 65536 = w % 65535 := by rw [fletcher_of_even h, hw]; omega
  have hsecond : (w % 65535 + n * (a % 65535)) % 65535 = (w + n * a) % 65535 :=
    (Nat.mod_modEq w 65535).add ((Nat.mod_modEq a 65535).mul_left n)
  rw [hlow, hhigh, hsecond, fletcher_of_even hlen, hwords, List.sum_append, weightedSum_append, weightedSum_replicate_zero,
    List.sum_replicate, List.length_replicate, ha, hw]
  rfl

/-- R112(d): a zero byte behind an odd stream is the one that pads it. -/
theorem fletcher_append_zero_of_odd {X : List Byte} (h : X.length % 2 = 1) : fletcher (X ++ [0]) = fletcher X := by
  have heven : (X ++ [0]).length % 2 = 0 := by
    rw [List.length_append, List.length_singleton]
    omega
  rw [fletcher, fletcher, padEven_of_odd h, padEven_of_even heven]

/-- Settles O20: parts (b) to (d) are facts about the closed form, which the checksum of one update is; CS.GET changes
nothing that CS.GET reads. -/
theorem checksumConsequences : Obligations.ChecksumConsequences := by
  refine ⟨fun A => ?reset, fun X h => ?zeroWords, fun X n h => ?appendedZeros, fun X h => ?oddStream,
    fun s t u ht hu => ?twice⟩
  case reset =>
    rw [csaReset_eq]
    decide
  case zeroWords =>
    apply BitVec.eq_of_toNat_eq
    rw [csaGet_csaUpdate_zero, fletcher_of_zero_words h]
    rfl
  case appendedZeros =>
    simp only [csaGet_csaUpdate_zero]
    exact fletcher_append_zeros n h
  case oddStream =>
    apply BitVec.eq_of_toNat_eq
    rw [csaGet_csaUpdate_zero, csaGet_csaUpdate_zero, fletcher_append_zero_of_odd h]
  case twice =>
    rw [exec_csGet] at ht hu
    cases ht
    cases hu
    exact ⟨le32 (csaGet s.csh), rfl, rfl⟩

/-! The remainder without a divider (R116). -/

/-- One folding step adds the halves; the sum has 17 bits at most. -/
theorem foldHalves_toNat (x : Word32) : (foldHalves x).toNat = x.toNat % 65536 + x.toNat / 65536 := by
  have hx := x.isLt
  have hlow : ((x.extractLsb' 0 16).setWidth 32).toNat = x.toNat % 65536 := by
    simp only [BitVec.toNat_setWidth, BitVec.extractLsb'_toNat, Nat.shiftRight_zero]
    omega
  have hhigh : ((x.extractLsb' 16 16).setWidth 32).toNat = x.toNat / 65536 := by
    simp only [BitVec.toNat_setWidth, BitVec.extractLsb'_toNat, Nat.shiftRight_eq_div_pow]
    omega
  rw [foldHalves, BitVec.toNat_add, hlow, hhigh]
  omega

/-- Folding twice leaves 16 bits, since the first carry leaves room for the second; it keeps the remainder, as 65536 is 1
modulo 65535 (R116). -/
theorem foldHalves_twice (x : Word32) :
    (foldHalves (foldHalves x)).toNat ≤ 65535 ∧ (foldHalves (foldHalves x)).toNat % 65535 = x.toNat % 65535 := by
  have hx := x.isLt
  rw [foldHalves_toNat, foldHalves_toNat]
  omega

/-- Settles O21: of the numbers up to 65535 the last alone is not its own remainder, and it is replaced by 0. -/
theorem foldedRemainderIsExact : Obligations.FoldedRemainderIsExact := by
  intro x
  obtain ⟨hle, hmod⟩ := foldHalves_twice x
  refine ⟨hle, ?_⟩
  rw [← hmod]
  by_cases hlast : foldHalves (foldHalves x) = BitVec.ofNat 32 Config.modulus
  · rw [foldRemainder, if_pos hlast, hlast]
    rfl
  · have hne : (foldHalves (foldHalves x)).toNat ≠ 65535 := fun h => hlast (BitVec.eq_of_toNat_eq h)
    rw [foldRemainder, if_neg hlast]
    omega

end Sys2Proof.Machine
end

section
/-! The run of FP.PROCESS and the search inside it: what ends the run (R139 to R142, R193), and what the match position
stands for (R153, R171). -/

namespace Sys2Proof.Machine

/-! The ends of a run, from the equations of `fpFinal`. -/

/-- Settles O32: a run is its final state beside no byte. -/
theorem everyByteIsConsumed : Obligations.EveryByteIsConsumed := by
  intro P B rest s t h
  rw [fpRun_eq_fpFinal] at h
  cases hfinal : fpFinal P B s with
  | error f => rw [hfinal] at h; cases h
  | ok u => rw [hfinal] at h; cases h; rfl

/-- Settles O53: the weaker invariant inside the run is the one of rest where the run ends. -/
theorem processEndsAtRest : Obligations.ProcessEndsAtRest := fun _ _ _ _ => fpProcess_inv

/-- Settles O29: the first round already stops. -/
theorem unansweredBeginHasNoStep : Obligations.UnansweredBeginHasNoStep := fun _ _ _ hst hlen ha =>
  fpProcess_of_fpFinal_error (fpFinal_of_error (fpRound_header_stuck hst hlen ha))

/-! One byte of the search (R152). -/

section
variable {P : Params} {b : Byte} {bs : List Byte} {s : State}

theorem stepIntron_complete (h : s.intron[comparePos s b]? = some b) (hfull : comparePos s b + 1 = P.intronLen) :
    stepIntron P (b :: bs) s = .advanced bs (startFrame s) := by
  rw [stepIntron, if_pos h, if_pos hfull]

theorem stepIntron_match (h : s.intron[comparePos s b]? = some b) (hmore : comparePos s b + 1 ≠ P.intronLen) :
    stepIntron P (b :: bs) s = stepIntron P bs { s with mpos := comparePos s b + 1 } := by
  rw [stepIntron, if_pos h, if_neg hmore]

theorem stepIntron_discard (h : s.intron[comparePos s b]? ≠ some b) :
    stepIntron P (b :: bs) s = stepIntron P bs { s with mpos := 0 } := by
  rw [stepIntron, if_neg h]

end

/-! What the match position stands for (R153, R171). -/

/-- A search that uses up its bytes leaves a position whose part of the pattern ends the bytes seen (R171). -/
theorem stepIntron_needMore_suffix {P : Params} {B rest : List Byte} {s t : State}
    (h : stepIntron P B s = .needMore rest t) : s.intron.take t.mpos <:+ s.intron.take s.mpos ++ B := by
  induction B generalizing s with
  | nil =>
    cases h
    rw [List.append_nil]
  | cons b bs ih =>
    by_cases hmatch : s.intron[comparePos s b]? = some b
    · by_cases hfull : comparePos s b + 1 = P.intronLen
      · cases (stepIntron_complete hmatch hfull).symm.trans h
      · rw [stepIntron_match hmatch hfull] at h
        exact suffix_append_cons (take_comparePos_suffix hmatch) (ih h)
    · rw [stepIntron_discard hmatch] at h
      exact suffix_append_cons List.nil_suffix (ih h)

/-- Settles O35: the position stays inside the pattern, and it stands for the bytes last seen, at a full match for all of it. -/
theorem intronMatchIsSound : Obligations.IntronMatchIsSound := by
  intro P B s hlen hmpos
  rcases stepIntron_cases P B s with ⟨k, h⟩ | ⟨u, b, rest, -, h⟩
  · have hsuffix := stepIntron_needMore_suffix h
    rw [h]
    exact ⟨stepIntron_mpos_lt hlen hmpos h, hsuffix⟩
  · have hfound := stepIntron_advanced_suffix hlen h
    rw [h]
    exact hfound

/-- Settles O36: the search goes on behind the bytes used up, at position 0 or at one whose byte is not the pattern's first. -/
theorem uniqueFirstByteIsFound : Obligations.UniqueFirstByteIsFound := by
  intro P G R s s1 hlen hunique h
  rcases stepIntron_cases P G s with ⟨k, hsearch⟩ | ⟨u, b, rest, -, hfound⟩
  · refine ⟨startFrame s, ?_⟩
    rw [List.append_assoc, stepIntron_append_needMore _ hsearch]
    exact stepIntron_pattern (s := { s with mpos := k }) R hlen (k.eq_zero_or_pos.imp_right (hunique k))
  · cases h.symm.trans hfound

/-- With the pattern 55 4E 55 58, the fourth byte of 55 4E 55 4E breaks a partial match and is discarded, and with it the
55 4E 55 that the pattern could have begun with; no position is reached from the 55 58 left (R171). -/
theorem stepIntron_self_overlap {P : Params} {s : State} (hlen : P.intronLen = 4) (hmpos : s.mpos = 0)
    (hintron : s.intron = [0x55, 0x4E, 0x55, 0x58]) :
    stepIntron P [0x55, 0x4E, 0x55, 0x4E, 0x55, 0x58] s = .needMore [] s := by
  have hpartial : stepIntron P [0x55, 0x4E, 0x55, 0x4E, 0x55, 0x58] s
      = stepIntron P [0x4E, 0x55, 0x58] { s with mpos := 3 } := by
    simp [stepIntron, comparePos, hlen, hmpos, hintron]
  have hbroken : stepIntron P [0x4E, 0x55, 0x58] { s with mpos := 3 } = stepIntron P [0x55, 0x58] { s with mpos := 0 } :=
    stepIntron_discard (by simp [comparePos, hintron])
  have hlost : stepIntron P [0x55, 0x58] { s with mpos := 0 } = .needMore [] { s with mpos := 0 } := by
    simp [stepIntron, comparePos, hlen, hintron]
  rw [hpartial, hbroken, hlost, ← hmpos]

/-- Settles O37: the first round uses the bytes up and leaves the state as it was. -/
theorem selfOverlapMissesIntron : Obligations.SelfOverlapMissesIntron := by
  intro P s hlen hst hmpos hintron
  refine fpProcess_of_fpFinal (fpFinal_of_needMore (rest := []) ?_)
  rw [fpRound_intron hst, stepIntron_self_overlap hlen hmpos hintron]

/-! The number of rounds (R139). -/

/-- A full match consumes the bytes of the pattern that the position does not yet stand for. -/
theorem stepIntron_advanced_length {P : Params} {B rest : List Byte} {s t : State}
    (h : stepIntron P B s = .advanced rest t) : P.intronLen + rest.length ≤ s.mpos + B.length := by
  induction B generalizing s with
  | nil => cases h
  | cons b bs ih =>
    have hpos : comparePos s b ≤ s.mpos := by
      unfold comparePos
      split
      · exact le_rfl
      · exact Nat.zero_le _
    rw [List.length_cons]
    by_cases hmatch : s.intron[comparePos s b]? = some b
    · by_cases hfull : comparePos s b + 1 = P.intronLen
      · cases (stepIntron_complete hmatch hfull).symm.trans h
        omega
      · rw [stepIntron_match hmatch hfull] at h
        have hrest := ih h
        simp only at hrest
        omega
    · rw [stepIntron_discard hmatch] at h
      have hrest := ih h
      simp only at hrest
      omega

/-- The frames that can still begin: each takes a pattern's bytes, the first those from the match position on. A position
beyond the pattern's last byte, which no run reaches, counts as that one. -/
def framesLeft (P : Params) (B : List Byte) (s : State) : Nat := (B.length + min s.mpos P.intronLenPred) / P.intronLen

theorem framesLeft_le (P : Params) (B : List Byte) (s : State) : framesLeft P B s ≤ B.length / P.intronLen + 1 := by
  have hpos : B.length + min s.mpos P.intronLenPred ≤ B.length + P.intronLen := by
    simp only [Params.intronLen]
    omega
  exact (Nat.div_le_div_right hpos).trans_eq (Nat.add_div_right _ (intronLen_pos P))

/-- Consumed bytes begin no frame. -/
theorem framesLeft_drop_le (P : Params) (B : List Byte) (n : Nat) {s t : State} (h : t.mpos = s.mpos) :
    framesLeft P (B.drop n) t ≤ framesLeft P B s := by
  rw [framesLeft, framesLeft, h, List.length_drop]
  exact Nat.div_le_div_right (by omega)

/-- A frame found is one of those left. -/
theorem framesLeft_startFrame_lt {P : Params} {B rest : List Byte} {s : State} (hrest : rest.length < B.length)
    (h : stepIntron P B s = .advanced rest (startFrame s)) : framesLeft P rest (startFrame s) < framesLeft P B s := by
  have hlen := stepIntron_advanced_length h
  have hbytes : rest.length + P.intronLen ≤ B.length + min s.mpos P.intronLenPred := by
    simp only [Params.intronLen] at hlen ⊢
    omega
  calc framesLeft P rest (startFrame s) < rest.length / P.intronLen + 1 := by simp [framesLeft]
    _ = (rest.length + P.intronLen) / P.intronLen := (Nat.add_div_right _ (intronLen_pos P)).symm
    _ ≤ framesLeft P B s := Nat.div_le_div_right hbytes

/-- A bound on the rounds that can still advance: three for each frame that can begin, and those of the frame begun (R139). -/
def advancesLeft (P : Params) (B : List Byte) (s : State) : Nat := 3 * framesLeft P B s + s.st.toSearch

theorem advancesLeft_lt {P : Params} {B rest : List Byte} {s t : State} (h : fpRound P B s = .ok (.advanced rest t)) :
    advancesLeft P rest t < advancesLeft P B s := by
  simp only [advancesLeft]
  cases roundCase_of_eq h with
  | frameFound u b _ hst hB hstep =>
    have hframes := framesLeft_startFrame_lt (by rw [hB, List.length_append, List.length_cons]; omega) hstep
    rw [hst, startFrame_st, FsmState.toSearch, FsmState.toSearch]
    omega
  | headerDone a as hst =>
    have hframes : framesLeft P (B.drop (P.hdrLen - s.cnt)) (headerDone P a as (headerStored P B s)) ≤ framesLeft P B s :=
      framesLeft_drop_le P B _ rfl
    have hnext : (headerDone P a as (headerStored P B s)).st.toSearch = 1 := by
      simp only [headerDone]
      split <;> rfl
    rw [hnext, hst, show FsmState.header.toSearch = 2 from rfl]
    omega
  | dataDone hst =>
    have hframes : framesLeft P (B.drop (s.bodyLen P - s.cnt)) (completeBody P (dataStreamed P B s)) ≤ framesLeft P B s :=
      framesLeft_drop_le P B _ (by rw [completeBody_mpos, dataStreamed_eq])
    rw [hst, completeBody_st, FsmState.toSearch, FsmState.toSearch]
    omega
  | drainDone hst =>
    have hframes : framesLeft P (B.drop (s.bodyLen P - s.cnt)) (completeDrain s) ≤ framesLeft P B s :=
      framesLeft_drop_le P B _ rfl
    rw [hst, completeDrain_st, FsmState.toSearch, FsmState.toSearch]
    omega

/-- A round that advances leaves the rest of the run. -/
theorem fpRun_of_advanced {P : Params} {B rest : List Byte} {s t : State} (h : fpRound P B s = .ok (.advanced rest t)) :
    fpRun P B s = fpRun P rest t := by
  rw [fpRun_eq_fpFinal, fpRun_eq_fpFinal, fpFinal_of_advanced h]

/-- With more rounds than can advance, the loop is the run. -/
theorem fpLoop_eq_fpRun {P : Params} (B : List Byte) (s : State) :
    ∀ n, advancesLeft P B s < n → fpLoop P n B s = fpRun P B s := by
  induction B, s using fpRound_induction P with
  | stop B s f hr =>
    rintro (_ | n) hn
    · omega
    · simp only [fpRun, fpLoop, hr]
  | needMore B s rest t hr =>
    rintro (_ | n) hn
    · omega
    · simp only [fpRun, fpLoop, hr]
  | advanced B s rest t hr ih =>
    rintro (_ | n) hn
    · omega
    · have hlt := advancesLeft_lt hr
      have hloop : fpLoop P (n + 1) B s = fpLoop P n rest t := by simp only [fpLoop, hr]
      rw [hloop, fpRun_of_advanced hr]
      exact ih n (by omega)

/-- The bound of a run is not reached (R139, R200). -/
theorem fpRun_ne_loopBound (P : Params) (B : List Byte) (s : State) : fpRun P B s ≠ .error .loopBound := by
  rw [fpRun_eq_fpFinal]
  cases hfinal : fpFinal P B s with
  | ok t => exact nofun
  | error f =>
    cases fpFinal_error B s f hfinal
    exact nofun

/-- The rounds that can advance are fewer than R139's bound, from any state. -/
theorem advancesLeft_lt_bound (P : Params) (B : List Byte) (s : State) :
    advancesLeft P B s < 3 * (B.length / P.intronLen) + 6 := by
  have hframes := framesLeft_le P B s
  have hsearch : s.st.toSearch ≤ 2 := by cases s.st <;> decide
  rw [advancesLeft]
  omega

/-- Settles O30: by `advancesLeft_lt` at most `advancesLeft` rounds advance, and the round after them is within the bound. -/
theorem loopEndsWithinBound : Obligations.LoopEndsWithinBound := by
  intro P B s
  have hrun := fpLoop_eq_fpRun B s _ (advancesLeft_lt_bound P B s)
  exact ⟨hrun ▸ fpRun_ne_loopBound P B s, hrun⟩

end Sys2Proof.Machine
end
